-- ==== Sys2Proof/Word.lean ====
section
/-! DEFINITION. The bit-vector widths of the program image and the decoded instruction triple.
Registers and cells are naturals in [0, 2^W) for a width `W` that is a construction parameter (00_scope.md R7,
10_state.md R23), so they are `Nat` with an invariant; only the fields of an instruction group have fixed widths. -/

namespace Sys2Proof

/-- A byte of a program image, and the 8-bit `opcode` field (00_scope.md R18). -/
abbrev Byte := BitVec 8

/-- The 16-bit `value` field of an instruction (00_scope.md R18). -/
abbrev Half := BitVec 16

/-- The decoded instruction `{mf, value, opcode}` that the program store holds (00_scope.md R18, 10_state.md R40). -/
structure Triple where
  mf     : Bool
  value  : Half
  opcode : Byte
  deriving DecidableEq, Repr

end Sys2Proof
end

