-- ==== Sys2Proof/Config.lean ====
section
/-! DEFINITION. The construction parameters of one core instance (00_scope.md R7 to R13) and the language an opcode
table's operations are written in (41_core_primitives.md R118). All of it is plain data, so an instance holds its own
parameters and two instances can be compared. -/

namespace Sys2Proof

/-- The six registers, in the source's order (10_state.md R23, R30). -/
inductive Reg where
  | acc | pr | pc | fr | sp | asp
  deriving DecidableEq, Repr

/-- The four memory segments (10_state.md R38). -/
inductive Segment where
  | cache | stack | addressStack | ports
  deriving DecidableEq, Repr

/-- What a write of a value outside [0, 2^W) does (00_scope.md R9). -/
inductive WidthPolicy where
  | fault | truncate
  deriving DecidableEq, Repr

/-- A pure natural-valued expression over the values an operation has read so far: the "total pure functions on
naturals" of 41_core_primitives.md R118. `tmp k` is the k-th value the operation read, counted from 0. `ext f` is the
function number f of `Config.valueFunction`, any function whatever of two naturals. -/
inductive NatExpr where
  | lit   (n : Nat)
  | tmp   (k : Nat)
  | add   (a b : NatExpr)
  | monus (a b : NatExpr)
  | mul   (a b : NatExpr)
  | div   (a b : NatExpr)
  | mod   (a b : NatExpr)
  | and   (a b : NatExpr)
  | or    (a b : NatExpr)
  | xor   (a b : NatExpr)
  | shl   (a b : NatExpr)
  | shr   (a b : NatExpr)
  | eq    (a b : NatExpr)
  | lt    (a b : NatExpr)
  | ite   (c a b : NatExpr)
  | ext   (f : Nat) (a b : NatExpr)
  deriving DecidableEq, Repr

/-- An integer-valued expression, for the written values of 41_core_primitives.md R120 to R129 ("`v` an integer"):
a natural, or the difference of two naturals, which may be negative (R117). -/
inductive IntExpr where
  | nat  (a : NatExpr)
  | diff (a b : NatExpr)
  deriving DecidableEq, Repr

/-- The primitives that return a value (41_core_primitives.md R119, R123, R125, R128, R130, R132). -/
inductive Query where
  | regRead   (r : Reg)
  | cacheRead (a : NatExpr)
  | portRead  (p : NatExpr)
  | pop
  | apop
  | operand
  | memoryFlag
  | value
  deriving DecidableEq, Repr

/-- The primitives that return nothing (41_core_primitives.md R120, R122, R124, R126, R127, R129, R131). -/
inductive Effect where
  | regWrite   (r : Reg) (v : IntExpr)
  | setPc      (t : IntExpr)
  | cacheWrite (a : NatExpr) (v : IntExpr)
  | portWrite  (p : NatExpr) (v : IntExpr)
  | push       (v : IntExpr)
  | apush      (v : IntExpr)
  | halt
  deriving DecidableEq, Repr

/-- An operation of an opcode table: "a finite program whose actions are the primitives, composed in sequence, with
conditionals" (41_core_primitives.md R118). `get q k` reads `q` into the next temporary and goes on with `k`; `act e k`
does `e` and goes on; `ite c a b` goes on with `a` when `c` is not 0, else with `b`. A finite tree, so it terminates. -/
inductive Operation where
  | done
  | get (q : Query) (k : Operation)
  | act (e : Effect) (k : Operation)
  | ite (c : NatExpr) (a b : Operation)
  deriving DecidableEq, Repr

/-- `OPTABLE` (00_scope.md R12): the reference test table RT (42_reference_ops.md), or a table supplied from outside
as (opcode, operation) entries; an opcode without an entry has no operation. -/
inductive OpTable where
  | rt
  | given (entries : List (Byte × Operation))
  deriving DecidableEq, Repr

/-- The construction parameters (00_scope.md R7, R8, R9, R12), fixed for the life of an instance (R13). -/
structure Params where
  width       : Nat
  cacheSize   : Nat
  stackSize   : Nat
  astackSize  : Nat
  portsSize   : Nat
  policy      : WidthPolicy
  optable     : OpTable
  deriving DecidableEq, Repr

/-- DESIGN CHOICE (log 1; unsafe for claims about reset alone): the reference values of 00_scope.md R7 to R9 and RT are
the parameters of `State.reset`. Every claim that does not speak of reset quantifies over all parameters. -/
def Params.reference : Params where
  width := 16
  cacheSize := 256
  stackSize := 4
  astackSize := 4
  portsSize := 4
  policy := .fault
  optable := .rt

/-- DESIGN CHOICE (log 4; safe): the pure functions of an opcode table that the expression operators do not name,
numbered; nothing is known of them, so a claim holds whatever they are (41_core_primitives.md R118). -/
opaque Config.valueFunction : Nat → Nat → Nat → Nat

end Sys2Proof
end

