-- ==== Sys2Proof/Syntax.lean ====
section
/-! DEFINITION. The instructions: one constructor per row of spec/opcode_table.json. -/

namespace Sys2Proof

/-- Every instruction carries `mf` and `value` (30_encoding.md R83, R84); the two rows that cover a range of opcodes
carry the opcode too. -/
inductive Instr where
  /-- The generic row (30_encoding.md R92): the operation is OPTABLE(opcode). -/
  | dispatch (mf : Bool) (value : Half) (opcode : Byte)
  /-- RT opcode 0x00 (42_reference_ops.md R137). -/
  | halt (mf : Bool) (value : Half)
  /-- RT opcode 0x01 (R138). -/
  | push (mf : Bool) (value : Half)
  /-- RT opcode 0x02 (R139). -/
  | pop (mf : Bool) (value : Half)
  /-- RT opcode 0x03 (R140). -/
  | add (mf : Bool) (value : Half)
  /-- RT opcode 0x04 (R141). -/
  | lda (mf : Bool) (value : Half)
  /-- RT opcode 0x05 (R142). -/
  | sta (mf : Bool) (value : Half)
  /-- RT opcode 0x06 (R143). -/
  | adda (mf : Bool) (value : Half)
  /-- RT opcode 0x07 (R144). -/
  | suba (mf : Bool) (value : Half)
  /-- RT opcode 0x08 (R145). -/
  | jmp (mf : Bool) (value : Half)
  /-- RT opcode 0x09 (R146). -/
  | jz (mf : Bool) (value : Half)
  /-- RT opcode 0x0A (R147). -/
  | call (mf : Bool) (value : Half)
  /-- RT opcode 0x0B (R148). -/
  | ret (mf : Bool) (value : Half)
  /-- RT opcode 0x0C, `IN` (R149). -/
  | inPort (mf : Bool) (value : Half)
  /-- RT opcode 0x0D, `OUT` (R150). -/
  | outPort (mf : Bool) (value : Half)
  /-- RT opcode 0x0E (R151). -/
  | ldp (mf : Bool) (value : Half)
  /-- RT opcode 0x0F (R152). -/
  | ldi (mf : Bool) (value : Half)
  /-- RT opcode 0x10 (R153). -/
  | sti (mf : Bool) (value : Half)
  /-- RT opcode 0x11 (R154). -/
  | pusha (mf : Bool) (value : Half)
  /-- RT opcode 0x12 (R155). -/
  | cmp (mf : Bool) (value : Half)
  /-- RT opcode 0x13 (R156). -/
  | jf (mf : Bool) (value : Half)
  /-- The opcodes 0x14 to 0xFF, which RT leaves without an operation (R157). -/
  | unassigned (mf : Bool) (value : Half) (opcode : Byte)
  deriving DecidableEq, Repr

end Sys2Proof
end

