-- ==== Sys2Proof/WellFormed.lean ====
section
/-! DEFINITION. The well-formedness checks: of an instruction, of an operation and a table (41_core_primitives.md R118,
R121), and of the construction parameters (70_reset_and_hazards.md R181). -/

namespace Sys2Proof

/-- The only field a row restricts: `unassigned` stands for the opcodes 0x14 to 0xFF (42_reference_ops.md R157). -/
def Instr.wf : Instr → Bool
  | .dispatch _ _ _ => true
  | .halt _ _ => true
  | .push _ _ => true
  | .pop _ _ => true
  | .add _ _ => true
  | .lda _ _ => true
  | .sta _ _ => true
  | .adda _ _ => true
  | .suba _ _ => true
  | .jmp _ _ => true
  | .jz _ _ => true
  | .call _ _ => true
  | .ret _ _ => true
  | .inPort _ _ => true
  | .outPort _ _ => true
  | .ldp _ _ => true
  | .ldi _ _ => true
  | .sti _ _ => true
  | .pusha _ _ => true
  | .cmp _ _ => true
  | .jf _ _ => true
  | .unassigned _ _ o => decide (0x14 ≤ o.toNat)

/-- Every temporary an expression names is among the `n` values read so far (log 5). -/
def NatExpr.scoped (n : Nat) : NatExpr → Bool
  | .lit _ => true
  | .tmp k => decide (k < n)
  | .add a b => a.scoped n && b.scoped n
  | .monus a b => a.scoped n && b.scoped n
  | .mul a b => a.scoped n && b.scoped n
  | .div a b => a.scoped n && b.scoped n
  | .mod a b => a.scoped n && b.scoped n
  | .and a b => a.scoped n && b.scoped n
  | .or a b => a.scoped n && b.scoped n
  | .xor a b => a.scoped n && b.scoped n
  | .shl a b => a.scoped n && b.scoped n
  | .shr a b => a.scoped n && b.scoped n
  | .eq a b => a.scoped n && b.scoped n
  | .lt a b => a.scoped n && b.scoped n
  | .ite c a b => c.scoped n && a.scoped n && b.scoped n
  | .ext _ a b => a.scoped n && b.scoped n

def IntExpr.scoped (n : Nat) : IntExpr → Bool
  | .nat a => a.scoped n
  | .diff a b => a.scoped n && b.scoped n

def Query.scoped (n : Nat) : Query → Bool
  | .regRead _ => true
  | .cacheRead a => a.scoped n
  | .portRead p => p.scoped n
  | .pop => true
  | .apop => true
  | .operand => true
  | .memoryFlag => true
  | .value => true

def Effect.scoped (n : Nat) : Effect → Bool
  | .regWrite _ v => v.scoped n
  | .setPc t => t.scoped n
  | .cacheWrite a v => a.scoped n && v.scoped n
  | .portWrite p v => p.scoped n && v.scoped n
  | .push v => v.scoped n
  | .apush v => v.scoped n
  | .halt => true

/-- "An opcode table containing either is refused": no `REG_WRITE` to `SP` or `ASP` (41_core_primitives.md R121). -/
def Effect.keepsCursors : Effect → Bool
  | .regWrite r _ => decide (r ≠ .sp) && decide (r ≠ .asp)
  | .setPc _ => true
  | .cacheWrite _ _ => true
  | .portWrite _ _ => true
  | .push _ => true
  | .apush _ => true
  | .halt => true

/-- An operation that has read `n` values is admitted: it writes no cursor (R118, R121) and names only values it has
read (log 5). -/
def Operation.admitted (n : Nat) : Operation → Bool
  | .done => true
  | .get q k => q.scoped n && k.admitted (n + 1)
  | .act e k => e.scoped n && e.keepsCursors && k.admitted n
  | .ite c a b => c.scoped n && a.admitted n && b.admitted n

/-- A well-formed table (41_core_primitives.md R118). RT is well formed (42_reference_ops.md R135). -/
def OpTable.wf : OpTable → Bool
  | .rt => true
  | .given es => es.all fun e => e.2.admitted 0

/-- The checks of `construct` (70_reset_and_hazards.md R181): `W >= 1`, both stack capacities at most 2^W - 1, and a
well-formed table. -/
def Params.wf (p : Params) : Bool :=
  decide (1 ≤ p.width) && decide (p.stackSize ≤ 2 ^ p.width - 1) && decide (p.astackSize ≤ 2 ^ p.width - 1) &&
    p.optable.wf

end Sys2Proof
end

