-- ==== Sys2Proof/Decode.lean ====
section
/-! DEFINITION. The group decoder and encoder (30_encoding.md R83 to R90), the naming of a decoded group as an
instruction of the table, and the parsing of a program image (R73 to R82). -/

namespace Sys2Proof

/-- `Decode` of 30_encoding.md R88: total on four bytes. -/
def Triple.decode (b0 b1 b2 b3 : Byte) : Triple where
  mf := b0.toNat % 2 == 1
  value := BitVec.ofNat 16 (b1.toNat * 256 + b2.toNat)
  opcode := b3

/-- `Encode` of 30_encoding.md R89: bits 7:1 of byte 0 are written as 0. -/
def Triple.encode (t : Triple) : List Byte :=
  [if t.mf then 0x01#8 else 0x00#8, BitVec.ofNat 8 (t.value.toNat / 256), BitVec.ofNat 8 (t.value.toNat % 256), t.opcode]

/-- The row of RT that an opcode selects (42_reference_ops.md R136, R157). -/
def Instr.ofRt (t : Triple) : Instr :=
  match t.opcode.toNat with
  | 0x00 => .halt t.mf t.value
  | 0x01 => .push t.mf t.value
  | 0x02 => .pop t.mf t.value
  | 0x03 => .add t.mf t.value
  | 0x04 => .lda t.mf t.value
  | 0x05 => .sta t.mf t.value
  | 0x06 => .adda t.mf t.value
  | 0x07 => .suba t.mf t.value
  | 0x08 => .jmp t.mf t.value
  | 0x09 => .jz t.mf t.value
  | 0x0A => .call t.mf t.value
  | 0x0B => .ret t.mf t.value
  | 0x0C => .inPort t.mf t.value
  | 0x0D => .outPort t.mf t.value
  | 0x0E => .ldp t.mf t.value
  | 0x0F => .ldi t.mf t.value
  | 0x10 => .sti t.mf t.value
  | 0x11 => .pusha t.mf t.value
  | 0x12 => .cmp t.mf t.value
  | 0x13 => .jf t.mf t.value
  | _ => .unassigned t.mf t.value t.opcode

/-- The instruction a decoded group is under an opcode table: RT's own row under RT, the generic row (30_encoding.md
R92) under a table supplied from outside (log 7). -/
def Instr.ofTriple (T : OpTable) (t : Triple) : Instr :=
  match T with
  | .rt => Instr.ofRt t
  | .given _ => .dispatch t.mf t.value t.opcode

/-- Why a byte list gives no instruction. -/
inductive DecodeError where
  /-- Fewer than four bytes are left: "no partial instruction is ever returned" (30_encoding.md R81). -/
  | shortGroup
  deriving DecidableEq, Repr

/-- Reads one instruction from the front of a byte list and returns the rest: total, and refusing only a short group
(30_encoding.md R88, R94). -/
def decode (T : OpTable) : List Byte → Except DecodeError (Instr × List Byte)
  | b0 :: b1 :: b2 :: b3 :: rest => .ok (Instr.ofTriple T (Triple.decode b0 b1 b2 b3), rest)
  | _ => .error .shortGroup

/-- The fields of an instruction, its opcode from 42_reference_ops.md R136. -/
def Instr.toTriple : Instr → Triple
  | .dispatch m v o => ⟨m, v, o⟩
  | .halt m v => ⟨m, v, 0x00⟩
  | .push m v => ⟨m, v, 0x01⟩
  | .pop m v => ⟨m, v, 0x02⟩
  | .add m v => ⟨m, v, 0x03⟩
  | .lda m v => ⟨m, v, 0x04⟩
  | .sta m v => ⟨m, v, 0x05⟩
  | .adda m v => ⟨m, v, 0x06⟩
  | .suba m v => ⟨m, v, 0x07⟩
  | .jmp m v => ⟨m, v, 0x08⟩
  | .jz m v => ⟨m, v, 0x09⟩
  | .call m v => ⟨m, v, 0x0A⟩
  | .ret m v => ⟨m, v, 0x0B⟩
  | .inPort m v => ⟨m, v, 0x0C⟩
  | .outPort m v => ⟨m, v, 0x0D⟩
  | .ldp m v => ⟨m, v, 0x0E⟩
  | .ldi m v => ⟨m, v, 0x0F⟩
  | .sti m v => ⟨m, v, 0x10⟩
  | .pusha m v => ⟨m, v, 0x11⟩
  | .cmp m v => ⟨m, v, 0x12⟩
  | .jf m v => ⟨m, v, 0x13⟩
  | .unassigned m v o => ⟨m, v, o⟩

/-- The four bytes of an instruction (30_encoding.md R89). -/
def encode (i : Instr) : List Byte := i.toTriple.encode

/-- Whether an instruction is the table's generic row (30_encoding.md R92). -/
def Instr.isGeneric : Instr → Bool
  | .dispatch _ _ _ => true
  | .halt _ _ => false
  | .push _ _ => false
  | .pop _ _ => false
  | .add _ _ => false
  | .lda _ _ => false
  | .sta _ _ => false
  | .adda _ _ => false
  | .suba _ _ => false
  | .jmp _ _ => false
  | .jz _ _ => false
  | .call _ _ => false
  | .ret _ _ => false
  | .inPort _ _ => false
  | .outPort _ _ => false
  | .ldp _ _ => false
  | .ldi _ _ => false
  | .sti _ _ => false
  | .pusha _ _ => false
  | .cmp _ _ => false
  | .jf _ _ => false
  | .unassigned _ _ _ => false

/-- The opcode tables under which the decoder gives an instruction its constructor: RT for RT's rows, a table supplied
from outside for the generic row (log 7). -/
def Instr.namedUnder (i : Instr) (T : OpTable) : Bool :=
  match T with
  | .rt => !i.isGeneric
  | .given _ => i.isGeneric

/-- The 32-bit big-endian word view of a group (30_encoding.md R87), as its four bytes. -/
def groupOfWord (w : Nat) : Triple :=
  Triple.decode (BitVec.ofNat 8 (w / 2 ^ 24)) (BitVec.ofNat 8 (w / 2 ^ 16)) (BitVec.ofNat 8 (w / 2 ^ 8)) (BitVec.ofNat 8 w)

/-- The bytes of that word as the image holds them, the first at the lowest offset (30_encoding.md R87). -/
def bytesOfWord (w : Nat) : List Byte :=
  [BitVec.ofNat 8 (w / 2 ^ 24), BitVec.ofNat 8 (w / 2 ^ 16), BitVec.ofNat 8 (w / 2 ^ 8), BitVec.ofNat 8 w]

/-- The instruction the decoder reads, under RT, from a word of the opcode table (30_encoding.md R87). -/
def decodeTableWord (nbits w : Nat) : Option Instr :=
  match decode .rt (bytesOfWord (w % 2 ^ nbits)) with
  | .ok (i, _) => some i
  | .error _ => none

/-- The tag and the bytes after its `0x00` terminator, or `none` where there is no terminator (30_encoding.md R75). -/
def splitHeader : List Byte → Option (List Byte × List Byte)
  | [] => none
  | b :: bs => if b = 0x00#8 then some ([], bs) else (splitHeader bs).map fun p => (b :: p.1, p.2)

/-- The complete groups of a body, in order; a tail of one to three bytes is ignored (30_encoding.md R80, R81). -/
def takeGroups : List Byte → List Triple
  | b0 :: b1 :: b2 :: b3 :: rest => Triple.decode b0 b1 b2 b3 :: takeGroups rest
  | _ => []

/-- The ASCII bytes of `"QT"` (30_encoding.md R75, 93_implementation_defined.md G1). -/
def tagQT : List Byte := [0x51#8, 0x54#8]

/-- The ASCII bytes of `"QM"` (30_encoding.md R75). -/
def tagQM : List Byte := [0x51#8, 0x4D#8]

/-- Parses a program image for a core of width `W` (30_encoding.md R75 to R82): the decoded program, or the `index` of
the `MalformedProgram` fault. The order is R170's: terminator, then tag, then length. -/
def parseImage (W : Nat) (image : List Byte) : Except Nat (List Triple) :=
  match splitHeader image with
  | none => .error image.length
  | some (tag, body) =>
    if tag = tagQM then .error 0
    else if tag = tagQT then
      if 2 ^ W < (takeGroups body).length then .error (tag.length + 1 + 4 * 2 ^ W) else .ok (takeGroups body)
    else .error 0

end Sys2Proof
end

