-- ==== Sys2Proof/Machine/State.lean ====
section
/-! DEFINITION. The state of one core instance as plain data (10_state.md), the fault record (R34), the reasons a step
can stop the model, and the state after `construct` (R42). -/

namespace Sys2Proof.Machine

/-- The engine states (10_state.md R33). -/
inductive EngineState where
  | ready | running | halted | faulted
  deriving DecidableEq, Repr

/-- The fault kinds (60_exceptions.md R159 to R167). -/
inductive FaultKind where
  | malformedProgram
  | unknownOpcode
  | addressOutOfRange
  | stackOverflow
  | stackUnderflow
  | addressStackOverflow
  | addressStackUnderflow
  | programCounterOutOfRange
  | cellWidthExceeded
  deriving DecidableEq, Repr

/-- What the `seg` field of a fault record names: "the segment or register the fault concerns" (10_state.md R34). -/
inductive Place where
  | register (r : Reg)
  | segment (g : Segment)
  deriving DecidableEq, Repr

/-- The fault record `{kind, code, pc, seg, index}` (10_state.md R34). -/
structure FaultRecord where
  kind  : FaultKind
  code  : Nat
  pc    : Option Nat
  seg   : Option Place
  index : Nat
  deriving DecidableEq, Repr

/-- What the place that raises a fault says of it; fault entry adds the code and the PC (60_exceptions.md R169). -/
structure FaultInfo where
  kind  : FaultKind
  seg   : Option Place
  index : Nat
  deriving DecidableEq, Repr

/-- Why an operation ends before its end: a fault one of its primitives raises (40_engine_cycle.md R108), or a write of
a cursor that no admitted operation holds (41_core_primitives.md R121). -/
inductive Abort where
  | raise (f : FaultInfo)
  | cursorWrite (r : Reg)
  deriving DecidableEq, Repr

/-- The register file (10_state.md R23): each register a natural in [0, 2^W). -/
structure RegFile where
  acc : Nat
  pr  : Nat
  pc  : Nat
  fr  : Nat
  sp  : Nat
  asp : Nat
  deriving DecidableEq, Repr

/-- The cells of one segment that are not 0, as (index, value) pairs with strictly rising indices; an unlisted cell
reads as 0, its value after construction (10_state.md R39; log 8). -/
abbrev Memory := List (Nat × Nat)

/-- The four segments (10_state.md R38). -/
structure Segments where
  cache        : Memory
  stack        : Memory
  addressStack : Memory
  ports        : Memory
  deriving DecidableEq, Repr

/-- One port-output event `(index, value)` (10_state.md R37). -/
abbrev PortEvent := Nat × Nat

/-- The part of the state an operation acts on: the registers, the segments, and the per-step latches and event list
(10_state.md R35, R36, 40_engine_cycle.md R107). A step's working copy is a copy of it, so an operation reaches nothing
else (41_core_primitives.md R134). -/
structure Work where
  regs        : RegFile
  segs        : Segments
  pcWritten   : Bool
  haltRequest : Bool
  out         : List PortEvent
  deriving DecidableEq, Repr

/-- The whole state of an instance. `cfg` is fixed at construction and `prog` at load (10_state.md R41; log 2);
`loaded` says that a `load` has succeeded (30_encoding.md R74; log 10). -/
structure State where
  cfg    : Params
  prog   : List Triple
  loaded : Bool
  engine : EngineState
  fault  : Option FaultRecord
  outLog : List PortEvent
  work   : Work
  deriving DecidableEq, Repr

/-- The model's own stops. The faults of 60_exceptions.md are no stops: they are next states in `faulted` (log 11). -/
inductive Fault where
  /-- Raised by a step whose operation runs `REG_WRITE` on `SP` or `ASP`. Safe: `construct` refuses such a table
  (41_core_primitives.md R121), so no run of a constructed instance meets it (log 6). -/
  | cursorWrite (r : Reg)
  deriving DecidableEq, Repr

/-- The refusals. -/
inductive Refusal where
  /-- An instruction without a meaning, raised by `exec`'s arm for it; no arm raises it. Safe. -/
  | notModelled (mnemonic : String)
  deriving DecidableEq, Repr

/-- The state after `construct` with these parameters (10_state.md R42, 70_reset_and_hazards.md R181). -/
def State.fresh (p : Params) : State where
  cfg := p
  prog := []
  loaded := false
  engine := .ready
  fault := none
  outLog := []
  work :=
    { regs := { acc := 0, pr := 0, pc := 0, fr := 0, sp := 0, asp := 0 }
      segs := { cache := [], stack := [], addressStack := [], ports := [] }
      pcWritten := false
      haltRequest := false
      out := [] }

/-- The machine right after reset: an instance constructed with the reference parameters (log 1), before `load`. -/
def State.reset : State := State.fresh Params.reference

end Sys2Proof.Machine
end

