-- ==== Sys2Proof/Machine/Ops.lean ====
section
/-! DEFINITION. The named operations over memory and registers, the core primitives (41_core_primitives.md), and fault
entry (60_exceptions.md R169). A primitive acts on the working copy and either returns or aborts. -/

namespace Sys2Proof.Machine

/-! ## Memory cells -/

/-- The value of one cell; an unlisted cell reads as 0 (10_state.md R39). -/
def Memory.read (m : Memory) (a : Nat) : Nat :=
  match m with
  | [] => 0
  | c :: rest => if c.1 = a then c.2 else Memory.read rest a

/-- Sets one cell and keeps the canonical form: writing 0 removes the entry (log 8). -/
def Memory.write (m : Memory) (a v : Nat) : Memory :=
  match m with
  | [] => if v = 0 then [] else [(a, v)]
  | c :: rest =>
    if a < c.1 then (if v = 0 then c :: rest else (a, v) :: c :: rest)
    else if a = c.1 then (if v = 0 then rest else (a, v) :: rest)
    else c :: Memory.write rest a v

/-- The canonical form: strictly rising indices, no entry equal to what an unlisted cell reads as. -/
def Memory.wf (m : Memory) : Bool :=
  match m with
  | [] => true
  | c :: rest => decide (c.2 ≠ 0) && rest.all (fun d => decide (c.1 < d.1)) && Memory.wf rest

/-- Every listed cell has an index below `size` and a value below 2^W (10_state.md R38). -/
def Memory.within (m : Memory) (size W : Nat) : Bool :=
  m.all fun c => decide (c.1 < size) && decide (c.2 < 2 ^ W)

/-! ## Registers and segments by name -/

/-- The register numbers (10_state.md R30). -/
def regNumber : Reg → Nat
  | .acc => 0
  | .pr => 1
  | .pc => 2
  | .fr => 3
  | .sp => 4
  | .asp => 5

def RegFile.get (f : RegFile) : Reg → Nat
  | .acc => f.acc
  | .pr => f.pr
  | .pc => f.pc
  | .fr => f.fr
  | .sp => f.sp
  | .asp => f.asp

def RegFile.set (f : RegFile) (r : Reg) (v : Nat) : RegFile :=
  match r with
  | .acc => { f with acc := v }
  | .pr => { f with pr := v }
  | .pc => { f with pc := v }
  | .fr => { f with fr := v }
  | .sp => { f with sp := v }
  | .asp => { f with asp := v }

def Segments.get (s : Segments) : Segment → Memory
  | .cache => s.cache
  | .stack => s.stack
  | .addressStack => s.addressStack
  | .ports => s.ports

/-- Sets one cell of one segment; the other segments are disjoint from it (20_memory.md R48). -/
def Segments.write (s : Segments) (g : Segment) (a v : Nat) : Segments :=
  match g with
  | .cache => { s with cache := s.cache.write a v }
  | .stack => { s with stack := s.stack.write a v }
  | .addressStack => { s with addressStack := s.addressStack.write a v }
  | .ports => { s with ports := s.ports.write a v }

def Segments.read (s : Segments) (g : Segment) (a : Nat) : Nat := (s.get g).read a

/-- `SIZE(seg)` (20_memory.md R53). -/
def segmentSize (c : Params) : Segment → Nat
  | .cache => c.cacheSize
  | .stack => c.stackSize
  | .addressStack => c.astackSize
  | .ports => c.portsSize

/-- The bounds checker `InBounds` (20_memory.md R53). -/
def inBounds (c : Params) (g : Segment) (i : Nat) : Bool := decide (i < segmentSize c g)

/-! ## The width rule -/

/-- `Fit(v, target, idx)` (41_core_primitives.md R117). -/
def fit (c : Params) (v : Int) (target : Place) (idx : Nat) : Except Abort Nat :=
  if 0 ≤ v ∧ v < (2 ^ c.width : Nat) then .ok v.toNat
  else
    match c.policy with
    | .fault => .error (.raise { kind := .cellWidthExceeded, seg := some target, index := idx })
    | .truncate => .ok (v % (2 ^ c.width : Nat)).toNat

/-! ## Register and control primitives -/

/-- `REG_READ(r)` (41_core_primitives.md R119). -/
def regRead (r : Reg) (w : Work) : Nat := w.regs.get r

/-- Stores a value in a register through the width rule: `x[r] <- v` (00_scope.md R17, 41_core_primitives.md R117). -/
def storeReg (c : Params) (r : Reg) (v : Int) (w : Work) : Except Abort Work :=
  match fit c v (.register r) (regNumber r) with
  | .error e => .error e
  | .ok u => .ok { w with regs := w.regs.set r u }

/-- `SET_PC(t)` (41_core_primitives.md R122): no check against `N` here. -/
def setPc (c : Params) (t : Int) (w : Work) : Except Abort Work :=
  match storeReg c .pc t w with
  | .error e => .error e
  | .ok w' => .ok { w' with pcWritten := true }

/-- `REG_WRITE(r, v)` (41_core_primitives.md R120); `REG_WRITE(PC, v)` is `SET_PC(v)`; on a cursor it is not admitted
(R121; log 6). -/
def regWrite (c : Params) (r : Reg) (v : Int) (w : Work) : Except Abort Work :=
  match r with
  | .acc => storeReg c .acc v w
  | .pr => storeReg c .pr v w
  | .pc => setPc c v w
  | .fr => storeReg c .fr v w
  | .sp => .error (.cursorWrite .sp)
  | .asp => .error (.cursorWrite .asp)

/-- `HALT()` (41_core_primitives.md R131). -/
def haltRequested (w : Work) : Work := { w with haltRequest := true }

/-! ## Cache and port primitives -/

/-- The fault of an index at or beyond the capacity (20_memory.md R53, 60_exceptions.md R161). -/
def outOfRange (g : Segment) (i : Nat) : FaultInfo :=
  { kind := .addressOutOfRange, seg := some (.segment g), index := i }

/-- `CACHE_READ(a)` (41_core_primitives.md R123). -/
def cacheRead (c : Params) (a : Nat) (w : Work) : Except Abort Nat :=
  if inBounds c .cache a then .ok (w.segs.read .cache a) else .error (.raise (outOfRange .cache a))

/-- `CACHE_WRITE(a, v)` (41_core_primitives.md R124): the bounds check comes first. -/
def cacheWrite (c : Params) (a : Nat) (v : Int) (w : Work) : Except Abort Work :=
  if inBounds c .cache a then
    match fit c v (.segment .cache) a with
    | .error e => .error e
    | .ok u => .ok { w with segs := w.segs.write .cache a u }
  else .error (.raise (outOfRange .cache a))

/-- `PORT_READ(p)` (41_core_primitives.md R125). -/
def portRead (c : Params) (p : Nat) (w : Work) : Except Abort Nat :=
  if inBounds c .ports p then .ok (w.segs.read .ports p) else .error (.raise (outOfRange .ports p))

/-- `PORT_WRITE(p, v)` (41_core_primitives.md R126): the event waits in `out` for the commit. -/
def portWrite (c : Params) (p : Nat) (v : Int) (w : Work) : Except Abort Work :=
  if inBounds c .ports p then
    match fit c v (.segment .ports) p with
    | .error e => .error e
    | .ok u => .ok { w with segs := w.segs.write .ports p u, out := w.out ++ [(p, u)] }
  else .error (.raise (outOfRange .ports p))

/-! ## Stack primitives: write then increment, decrement then read (20_memory.md R55, R56) -/

/-- `PUSH(v)` (41_core_primitives.md R127): the pointer check comes first. -/
def push (c : Params) (v : Int) (w : Work) : Except Abort Work :=
  if c.stackSize ≤ w.regs.sp then
    .error (.raise { kind := .stackOverflow, seg := some (.segment .stack), index := w.regs.sp })
  else
    match fit c v (.segment .stack) w.regs.sp with
    | .error e => .error e
    | .ok u => .ok { w with segs := w.segs.write .stack w.regs.sp u, regs := { w.regs with sp := w.regs.sp + 1 } }

/-- `POP()` (41_core_primitives.md R128): the popped cell keeps its value (20_memory.md R59). -/
def pop (w : Work) : Except Abort (Nat × Work) :=
  if w.regs.sp = 0 then .error (.raise { kind := .stackUnderflow, seg := some (.segment .stack), index := 0 })
  else .ok (w.segs.read .stack (w.regs.sp - 1), { w with regs := { w.regs with sp := w.regs.sp - 1 } })

/-- `APUSH(v)` (41_core_primitives.md R129). -/
def apush (c : Params) (v : Int) (w : Work) : Except Abort Work :=
  if c.astackSize ≤ w.regs.asp then
    .error (.raise { kind := .addressStackOverflow, seg := some (.segment .addressStack), index := w.regs.asp })
  else
    match fit c v (.segment .addressStack) w.regs.asp with
    | .error e => .error e
    | .ok u =>
      .ok { w with segs := w.segs.write .addressStack w.regs.asp u, regs := { w.regs with asp := w.regs.asp + 1 } }

/-- `APOP()` (41_core_primitives.md R130). -/
def apop (w : Work) : Except Abort (Nat × Work) :=
  if w.regs.asp = 0 then
    .error (.raise { kind := .addressStackUnderflow, seg := some (.segment .addressStack), index := 0 })
  else .ok (w.segs.read .addressStack (w.regs.asp - 1), { w with regs := { w.regs with asp := w.regs.asp - 1 } })

/-! ## Taking an exception -/

/-- The fault codes (60_exceptions.md R168). -/
def faultCode : FaultKind → Nat
  | .malformedProgram => 1
  | .unknownOpcode => 2
  | .addressOutOfRange => 3
  | .stackOverflow => 4
  | .stackUnderflow => 5
  | .addressStackOverflow => 6
  | .addressStackUnderflow => 7
  | .programCounterOutOfRange => 8
  | .cellWidthExceeded => 9

/-- Fault entry (60_exceptions.md R169): the engine enters `faulted` with the record; every register, cell and
`outLog` keep their values, since the working copy is dropped. There is no return from it (R171). -/
def State.enterFault (s : State) (pc : Option Nat) (f : FaultInfo) : State :=
  { s with
    engine := .faulted
    fault := some { kind := f.kind, code := faultCode f.kind, pc := pc, seg := f.seg, index := f.index } }

/-- The fetch fault (40_engine_cycle.md R102, 60_exceptions.md R166). -/
def pcOutOfRange (pc : Nat) : FaultInfo := { kind := .programCounterOutOfRange, seg := none, index := pc }

/-- The load fault (60_exceptions.md R159). -/
def malformedProgram (index : Nat) : FaultInfo := { kind := .malformedProgram, seg := none, index := index }

/-- The fetch of a step: the instruction at `PC`, or nothing where `PC >= N` (40_engine_cycle.md R102). -/
def State.fetch (s : State) : Option Triple := s.prog[s.work.regs.pc]?

/-- A program with the group `t` at index `i`, padded with zero groups where `i` lies beyond its end (log 9). -/
def placeAt (prog : List Triple) (i : Nat) (t : Triple) : List Triple :=
  match prog, i with
  | [], 0 => [t]
  | _ :: rest, 0 => t :: rest
  | [], i + 1 => { mf := false, value := 0, opcode := 0 } :: placeAt [] i t
  | u :: rest, i + 1 => u :: placeAt rest i t

end Sys2Proof.Machine
end

