-- ==== Sys2Proof/Machine/Operands.lean ====
section
/-! DEFINITION. The operand form (30_encoding.md R91, 40_engine_cycle.md R103), what an operation receives of its
instruction (R106), and the value of an operation's expressions (41_core_primitives.md R118). -/

namespace Sys2Proof.Machine

/-- The addressing-mode resolver (40_engine_cycle.md R103): the immediate `value`, or the cell `cache[value]`. -/
def State.resolve (s : State) (mf : Bool) (value : Half) : Except FaultInfo Nat :=
  if mf then
    if inBounds s.cfg .cache value.toNat then .ok (s.work.segs.read .cache value.toNat)
    else .error (outOfRange .cache value.toNat)
  else .ok value.toNat

/-- What an operation receives: the resolved operand and the raw `mf` and `value` (40_engine_cycle.md R106). -/
structure OpContext where
  operand : Nat
  mf      : Bool
  value   : Nat
  deriving DecidableEq, Repr

/-- The naturals an operation computes from the values it has read (41_core_primitives.md R118; log 4). -/
def evalNat (env : List Nat) : NatExpr → Nat
  | .lit n => n
  | .tmp k => env.getD k 0
  | .add a b => evalNat env a + evalNat env b
  | .monus a b => evalNat env a - evalNat env b
  | .mul a b => evalNat env a * evalNat env b
  | .div a b => evalNat env a / evalNat env b
  | .mod a b => evalNat env a % evalNat env b
  | .and a b => evalNat env a &&& evalNat env b
  | .or a b => evalNat env a ||| evalNat env b
  | .xor a b => evalNat env a ^^^ evalNat env b
  | .shl a b => evalNat env a <<< evalNat env b
  | .shr a b => evalNat env a >>> evalNat env b
  | .eq a b => if evalNat env a = evalNat env b then 1 else 0
  | .lt a b => if evalNat env a < evalNat env b then 1 else 0
  | .ite c a b => if evalNat env c ≠ 0 then evalNat env a else evalNat env b
  | .ext f a b => Config.valueFunction f (evalNat env a) (evalNat env b)

/-- The integer to be written: a difference may be negative (41_core_primitives.md R117). -/
def evalInt (env : List Nat) : IntExpr → Int
  | .nat a => (evalNat env a : Int)
  | .diff a b => (evalNat env a : Int) - (evalNat env b : Int)

end Sys2Proof.Machine
end

