-- ==== Sys2Proof/Machine/Flags.lean ====
section
/-! DEFINITION. Flags. The core sets no bit of `FR` on its own (10_state.md R27); the only flag computation of the spec
is the reference table's: `CMP` writes 1 or 0 to the whole register (42_reference_ops.md R155), `JF` tests it (R156). -/

namespace Sys2Proof.Machine

/-- The value `CMP` writes to `FR`: 1 where the two naturals are equal, else 0 (42_reference_ops.md R155). -/
def compareFlag (a b : NatExpr) : IntExpr := .nat (.eq a b)

/-- The condition of `JF`: the flag register, read into `f`, is not 0 (42_reference_ops.md R156). -/
def flagIsSet (f : NatExpr) : NatExpr := f

/-- The condition of `JZ`: the accumulator, read into `a`, is 0 (42_reference_ops.md R146). -/
def isZero (a : NatExpr) : NatExpr := .eq a (.lit 0)

end Sys2Proof.Machine
end

