-- ==== Sys2Proof/Machine/Engine.lean ====
section
/-! DEFINITION. The part of one step after the fetch (40_engine_cycle.md R100): operand resolution, dispatch, execution
on a working copy, commit and program-counter sequencing. Every instruction's meaning is one use of `State.execute`. -/

namespace Sys2Proof.Machine

/-- A primitive that returns a value (41_core_primitives.md R119, R123, R125, R128, R130, R132). -/
def runQuery (c : Params) (x : OpContext) (env : List Nat) (q : Query) (w : Work) : Except Abort (Nat × Work) :=
  match q with
  | .regRead r => .ok (regRead r w, w)
  | .cacheRead a =>
    match cacheRead c (evalNat env a) w with
    | .error e => .error e
    | .ok v => .ok (v, w)
  | .portRead p =>
    match portRead c (evalNat env p) w with
    | .error e => .error e
    | .ok v => .ok (v, w)
  | .pop => pop w
  | .apop => apop w
  | .operand => .ok (x.operand, w)
  | .memoryFlag => .ok (if x.mf then 1 else 0, w)
  | .value => .ok (x.value, w)

/-- A primitive that returns nothing (41_core_primitives.md R120, R122, R124, R126, R127, R129, R131). -/
def runEffect (c : Params) (env : List Nat) (e : Effect) (w : Work) : Except Abort Work :=
  match e with
  | .regWrite r v => regWrite c r (evalInt env v) w
  | .setPc t => setPc c (evalInt env t) w
  | .cacheWrite a v => cacheWrite c (evalNat env a) (evalInt env v) w
  | .portWrite p v => portWrite c (evalNat env p) (evalInt env v) w
  | .push v => push c (evalInt env v) w
  | .apush v => apush c (evalInt env v) w
  | .halt => .ok (haltRequested w)

/-- Runs an operation's primitives in order, each seeing the writes of those before it; the first fault ends it
(40_engine_cycle.md R107, R108, 41_core_primitives.md R133). -/
def runOperation (c : Params) (x : OpContext) (op : Operation) (env : List Nat) (w : Work) : Except Abort Work :=
  match op with
  | .done => .ok w
  | .get q k =>
    match runQuery c x env q w with
    | .error e => .error e
    | .ok p => runOperation c x k (env ++ [p.1]) p.2
  | .act e k =>
    match runEffect c env e w with
    | .error a => .error a
    | .ok w' => runOperation c x k env w'
  | .ite b t f =>
    if evalNat env b ≠ 0 then runOperation c x t env w else runOperation c x f env w

/-- The working copy a step starts from: latches clear, no events (40_engine_cycle.md R107). -/
def State.workingCopy (s : State) : Work := { s.work with pcWritten := false, haltRequest := false, out := [] }

/-- Commit and program-counter sequencing (40_engine_cycle.md R109), in the order R113, R110, R111, R112; the latches
and the event list do not survive the step (10_state.md R35, R36). -/
def State.commit (s : State) (w : Work) : State :=
  let t := { s with
    outLog := s.outLog ++ w.out
    work := { w with pcWritten := false, haltRequest := false, out := [] } }
  if w.haltRequest then { t with engine := .halted }
  else if w.pcWritten then t
  else if w.regs.pc + 1 < s.prog.length then
    { t with work := { t.work with regs := { t.work.regs with pc := w.regs.pc + 1 } } }
  else { t with engine := .halted }

/-- One instruction after its fetch (40_engine_cycle.md R100): resolve the operand, then dispatch (`found` is the
operation or the dispatch fault), then execute and commit. A fault on the way is entered with the instruction's `PC`
and commits nothing (R108, 60_exceptions.md R169, R170). -/
def State.execute (s : State) (found : Except FaultInfo Operation) (mf : Bool) (value : Half) :
    Host.Outcome State Fault Refusal :=
  match s.resolve mf value with
  | .error f => .next (s.enterFault (some s.work.regs.pc) f)
  | .ok operand =>
    match found with
    | .error f => .next (s.enterFault (some s.work.regs.pc) f)
    | .ok op =>
      match runOperation s.cfg { operand := operand, mf := mf, value := value.toNat } op [] s.workingCopy with
      | .error (.raise f) => .next (s.enterFault (some s.work.regs.pc) f)
      | .error (.cursorWrite r) => .fault (.cursorWrite r)
      | .ok w => .next (s.commit w)

/-- The dispatch fault of an opcode without an operation (40_engine_cycle.md R105, 60_exceptions.md R160). -/
def unknownOpcode (opcode : Byte) : FaultInfo :=
  { kind := .unknownOpcode, seg := none, index := opcode.toNat }

end Sys2Proof.Machine
end

