-- ==== Sys2Proof/Machine/AccumulatorOps.lean ====
section
/-! DEFINITION. RT's accumulator and memory operations (42_reference_ops.md R141 to R144) and their instructions. -/

namespace Sys2Proof.Machine

/-- `REG_WRITE(ACC, OPERAND())` (42_reference_ops.md R141). -/
def opLda : Operation := .get .operand (.act (.regWrite .acc (.nat (.tmp 0))) .done)

/-- `CACHE_WRITE(VALUE(), REG_READ(ACC))` (42_reference_ops.md R142). -/
def opSta : Operation := .get .value (.get (.regRead .acc) (.act (.cacheWrite (.tmp 0) (.nat (.tmp 1))) .done))

/-- `REG_WRITE(ACC, REG_READ(ACC) + OPERAND())` (42_reference_ops.md R143). -/
def opAdda : Operation :=
  .get (.regRead .acc) (.get .operand (.act (.regWrite .acc (.nat (.add (.tmp 0) (.tmp 1)))) .done))

/-- `REG_WRITE(ACC, REG_READ(ACC) - OPERAND())`, the difference an integer (42_reference_ops.md R144). -/
def opSuba : Operation :=
  .get (.regRead .acc) (.get .operand (.act (.regWrite .acc (.diff (.tmp 0) (.tmp 1))) .done))

/-- LDA (42_reference_ops.md R141). -/
def execLda (mf : Bool) (value : Half) (s : State) : Host.Outcome State Fault Refusal :=
  s.execute (.ok opLda) mf value

/-- STA (42_reference_ops.md R142). -/
def execSta (mf : Bool) (value : Half) (s : State) : Host.Outcome State Fault Refusal :=
  s.execute (.ok opSta) mf value

/-- ADDA (42_reference_ops.md R143). -/
def execAdda (mf : Bool) (value : Half) (s : State) : Host.Outcome State Fault Refusal :=
  s.execute (.ok opAdda) mf value

/-- SUBA (42_reference_ops.md R144). -/
def execSuba (mf : Bool) (value : Half) (s : State) : Host.Outcome State Fault Refusal :=
  s.execute (.ok opSuba) mf value

end Sys2Proof.Machine
end

