-- ==== Sys2Proof/Machine/ControlOps.lean ====
section
/-! DEFINITION. RT's control-transfer operations (42_reference_ops.md R145 to R148) and their instructions. -/

namespace Sys2Proof.Machine

/-- `SET_PC(OPERAND())` (42_reference_ops.md R145). -/
def opJmp : Operation := .get .operand (.act (.setPc (.nat (.tmp 0))) .done)

/-- `if REG_READ(ACC) = 0: SET_PC(OPERAND())` (42_reference_ops.md R146). -/
def opJz : Operation :=
  .get (.regRead .acc) (.ite (isZero (.tmp 0)) (.get .operand (.act (.setPc (.nat (.tmp 1))) .done)) .done)

/-- `APUSH(REG_READ(PC) + 1); SET_PC(OPERAND())` (42_reference_ops.md R147). -/
def opCall : Operation :=
  .get (.regRead .pc) (.act (.apush (.nat (.add (.tmp 0) (.lit 1))))
    (.get .operand (.act (.setPc (.nat (.tmp 1))) .done)))

/-- `SET_PC(APOP())` (42_reference_ops.md R148). -/
def opRet : Operation := .get .apop (.act (.setPc (.nat (.tmp 0))) .done)

/-- JMP (42_reference_ops.md R145). -/
def execJmp (mf : Bool) (value : Half) (s : State) : Host.Outcome State Fault Refusal :=
  s.execute (.ok opJmp) mf value

/-- JZ (42_reference_ops.md R146). -/
def execJz (mf : Bool) (value : Half) (s : State) : Host.Outcome State Fault Refusal :=
  s.execute (.ok opJz) mf value

/-- CALL (42_reference_ops.md R147). -/
def execCall (mf : Bool) (value : Half) (s : State) : Host.Outcome State Fault Refusal :=
  s.execute (.ok opCall) mf value

/-- RET (42_reference_ops.md R148). -/
def execRet (mf : Bool) (value : Half) (s : State) : Host.Outcome State Fault Refusal :=
  s.execute (.ok opRet) mf value

end Sys2Proof.Machine
end

