-- ==== Sys2Proof/Machine/FlagOps.lean ====
section
/-! DEFINITION. RT's flag-register operations (42_reference_ops.md R155, R156) and their instructions. -/

namespace Sys2Proof.Machine

/-- `REG_WRITE(FR, (REG_READ(ACC) = OPERAND()) ? 1 : 0)` (42_reference_ops.md R155). -/
def opCmp : Operation :=
  .get (.regRead .acc) (.get .operand (.act (.regWrite .fr (compareFlag (.tmp 0) (.tmp 1))) .done))

/-- `if REG_READ(FR) != 0: SET_PC(OPERAND())` (42_reference_ops.md R156). -/
def opJf : Operation :=
  .get (.regRead .fr) (.ite (flagIsSet (.tmp 0)) (.get .operand (.act (.setPc (.nat (.tmp 1))) .done)) .done)

/-- CMP (42_reference_ops.md R155). -/
def execCmp (mf : Bool) (value : Half) (s : State) : Host.Outcome State Fault Refusal :=
  s.execute (.ok opCmp) mf value

/-- JF (42_reference_ops.md R156). -/
def execJf (mf : Bool) (value : Half) (s : State) : Host.Outcome State Fault Refusal :=
  s.execute (.ok opJf) mf value

end Sys2Proof.Machine
end

