-- ==== Sys2Proof/Machine/PointerOps.lean ====
section
/-! DEFINITION. RT's pointer-register operations (42_reference_ops.md R151 to R154) and their instructions. -/

namespace Sys2Proof.Machine

/-- `REG_WRITE(PR, OPERAND())` (42_reference_ops.md R151). -/
def opLdp : Operation := .get .operand (.act (.regWrite .pr (.nat (.tmp 0))) .done)

/-- `REG_WRITE(ACC, CACHE_READ(REG_READ(PR)))` (42_reference_ops.md R152). -/
def opLdi : Operation :=
  .get (.regRead .pr) (.get (.cacheRead (.tmp 0)) (.act (.regWrite .acc (.nat (.tmp 1))) .done))

/-- `CACHE_WRITE(REG_READ(PR), REG_READ(ACC))` (42_reference_ops.md R153). -/
def opSti : Operation :=
  .get (.regRead .pr) (.get (.regRead .acc) (.act (.cacheWrite (.tmp 0) (.nat (.tmp 1))) .done))

/-- `PUSH(REG_READ(ACC))` (42_reference_ops.md R154). -/
def opPusha : Operation := .get (.regRead .acc) (.act (.push (.nat (.tmp 0))) .done)

/-- LDP (42_reference_ops.md R151). -/
def execLdp (mf : Bool) (value : Half) (s : State) : Host.Outcome State Fault Refusal :=
  s.execute (.ok opLdp) mf value

/-- LDI (42_reference_ops.md R152). -/
def execLdi (mf : Bool) (value : Half) (s : State) : Host.Outcome State Fault Refusal :=
  s.execute (.ok opLdi) mf value

/-- STI (42_reference_ops.md R153). -/
def execSti (mf : Bool) (value : Half) (s : State) : Host.Outcome State Fault Refusal :=
  s.execute (.ok opSti) mf value

/-- PUSHA (42_reference_ops.md R154). -/
def execPusha (mf : Bool) (value : Half) (s : State) : Host.Outcome State Fault Refusal :=
  s.execute (.ok opPusha) mf value

end Sys2Proof.Machine
end

