-- ==== Sys2Proof/Machine/PortOps.lean ====
section
/-! DEFINITION. RT's port operations (42_reference_ops.md R149, R150) and their instructions. -/

namespace Sys2Proof.Machine

/-- `REG_WRITE(ACC, PORT_READ(OPERAND()))` (42_reference_ops.md R149). -/
def opIn : Operation := .get .operand (.get (.portRead (.tmp 0)) (.act (.regWrite .acc (.nat (.tmp 1))) .done))

/-- `PORT_WRITE(OPERAND(), REG_READ(ACC))` (42_reference_ops.md R150). -/
def opOut : Operation := .get .operand (.get (.regRead .acc) (.act (.portWrite (.tmp 0) (.nat (.tmp 1))) .done))

/-- IN (42_reference_ops.md R149). -/
def execIn (mf : Bool) (value : Half) (s : State) : Host.Outcome State Fault Refusal :=
  s.execute (.ok opIn) mf value

/-- OUT (42_reference_ops.md R150). -/
def execOut (mf : Bool) (value : Half) (s : State) : Host.Outcome State Fault Refusal :=
  s.execute (.ok opOut) mf value

end Sys2Proof.Machine
end

