-- ==== Sys2Proof/Machine/StackOps.lean ====
section
/-! DEFINITION. RT's stack and halt operations (42_reference_ops.md R137 to R140) and their instructions. -/

namespace Sys2Proof.Machine

/-- `HALT()` (42_reference_ops.md R137). -/
def opHalt : Operation := .act .halt .done

/-- `PUSH(OPERAND())` (42_reference_ops.md R138). -/
def opPush : Operation := .get .operand (.act (.push (.nat (.tmp 0))) .done)

/-- `REG_WRITE(ACC, POP())` (42_reference_ops.md R139). -/
def opPop : Operation := .get .pop (.act (.regWrite .acc (.nat (.tmp 0))) .done)

/-- `b <- POP(); a <- POP(); PUSH(a + b)` (42_reference_ops.md R140). -/
def opAdd : Operation := .get .pop (.get .pop (.act (.push (.nat (.add (.tmp 1) (.tmp 0)))) .done))

/-- HALT (42_reference_ops.md R137). -/
def execHalt (mf : Bool) (value : Half) (s : State) : Host.Outcome State Fault Refusal :=
  s.execute (.ok opHalt) mf value

/-- PUSH (42_reference_ops.md R138). -/
def execPush (mf : Bool) (value : Half) (s : State) : Host.Outcome State Fault Refusal :=
  s.execute (.ok opPush) mf value

/-- POP (42_reference_ops.md R139). -/
def execPop (mf : Bool) (value : Half) (s : State) : Host.Outcome State Fault Refusal :=
  s.execute (.ok opPop) mf value

/-- ADD (42_reference_ops.md R140). -/
def execAdd (mf : Bool) (value : Half) (s : State) : Host.Outcome State Fault Refusal :=
  s.execute (.ok opAdd) mf value

end Sys2Proof.Machine
end

