-- ==== Sys2Proof/Machine/TableOps.lean ====
section
/-! DEFINITION. The opcode tables: RT as data (42_reference_ops.md R135, R136), the lookup of an opcode in a table
(40_engine_cycle.md R105), and the two rows of opcode_table.json that cover a range of opcodes. -/

namespace Sys2Proof.Machine

/-- RT's twenty entries (42_reference_ops.md R136). -/
def rtEntries : List (Byte × Operation) :=
  [(0x00, opHalt), (0x01, opPush), (0x02, opPop), (0x03, opAdd), (0x04, opLda), (0x05, opSta), (0x06, opAdda)] ++
  [(0x07, opSuba), (0x08, opJmp), (0x09, opJz), (0x0A, opCall), (0x0B, opRet), (0x0C, opIn), (0x0D, opOut)] ++
  [(0x0E, opLdp), (0x0F, opLdi), (0x10, opSti), (0x11, opPusha), (0x12, opCmp), (0x13, opJf)]

/-- The first entry of an opcode (log 15). -/
def findEntry (entries : List (Byte × Operation)) (o : Byte) : Option Operation :=
  match entries with
  | [] => none
  | e :: rest => if e.1 = o then some e.2 else findEntry rest o

/-- `OPTABLE(o)` (00_scope.md R12). -/
def lookupOp (T : OpTable) (o : Byte) : Option Operation :=
  match T with
  | .rt => findEntry rtEntries o
  | .given es => findEntry es o

/-- Dispatch: the operation of an opcode, or the fault `UnknownOpcode` (40_engine_cycle.md R105). -/
def dispatched (T : OpTable) (o : Byte) : Except FaultInfo Operation :=
  match lookupOp T o with
  | none => .error (unknownOpcode o)
  | some op => .ok op

/-- DISPATCH (any opcode): the operation is the instance's own OPTABLE(opcode) (30_encoding.md R92). -/
def execDispatch (mf : Bool) (value : Half) (opcode : Byte) (s : State) : Host.Outcome State Fault Refusal :=
  s.execute (dispatched s.cfg.optable opcode) mf value

/-- An opcode RT leaves without an operation: `UnknownOpcode` at dispatch, unless resolution faulted first
(42_reference_ops.md R157). -/
def execUnassigned (mf : Bool) (value : Half) (opcode : Byte) (s : State) : Host.Outcome State Fault Refusal :=
  s.execute (.error (unknownOpcode opcode)) mf value

end Sys2Proof.Machine
end

