-- ==== Sys2Proof/Machine/Dispatch.lean ====
section
/-! DEFINITION. One arm per instruction, each a direct call of its meaning. -/

namespace Sys2Proof.Machine

def exec (i : Instr) (s : State) : Host.Outcome State Fault Refusal :=
  match i with
  | .dispatch mf value opcode => Sys2Proof.Machine.execDispatch mf value opcode s
  | .halt mf value => Sys2Proof.Machine.execHalt mf value s
  | .push mf value => Sys2Proof.Machine.execPush mf value s
  | .pop mf value => Sys2Proof.Machine.execPop mf value s
  | .add mf value => Sys2Proof.Machine.execAdd mf value s
  | .lda mf value => Sys2Proof.Machine.execLda mf value s
  | .sta mf value => Sys2Proof.Machine.execSta mf value s
  | .adda mf value => Sys2Proof.Machine.execAdda mf value s
  | .suba mf value => Sys2Proof.Machine.execSuba mf value s
  | .jmp mf value => Sys2Proof.Machine.execJmp mf value s
  | .jz mf value => Sys2Proof.Machine.execJz mf value s
  | .call mf value => Sys2Proof.Machine.execCall mf value s
  | .ret mf value => Sys2Proof.Machine.execRet mf value s
  | .inPort mf value => Sys2Proof.Machine.execIn mf value s
  | .outPort mf value => Sys2Proof.Machine.execOut mf value s
  | .ldp mf value => Sys2Proof.Machine.execLdp mf value s
  | .ldi mf value => Sys2Proof.Machine.execLdi mf value s
  | .sti mf value => Sys2Proof.Machine.execSti mf value s
  | .pusha mf value => Sys2Proof.Machine.execPusha mf value s
  | .cmp mf value => Sys2Proof.Machine.execCmp mf value s
  | .jf mf value => Sys2Proof.Machine.execJf mf value s
  | .unassigned mf value opcode => Sys2Proof.Machine.execUnassigned mf value opcode s

end Sys2Proof.Machine
end

