-- ==== Sys2Proof/Machine/Step.lean ====
section
/-! DEFINITION. One `step()` (40_engine_cycle.md R100, R114 to R116), and the placing of a word where the next step
fetches. -/

namespace Sys2Proof.Machine

/-- One step. In `running` it fetches and runs one instruction, or faults at fetch (40_engine_cycle.md R100, R102); in
`ready`, `halted` and `faulted` it changes nothing (R114, R115, R116). -/
def step (s : State) : Host.Outcome State Fault Refusal :=
  match s.engine with
  | .ready => .next s
  | .halted => .next s
  | .faulted => .next s
  | .running =>
    match s.fetch with
    | none => .next (s.enterFault (some s.work.regs.pc) (pcOutOfRange s.work.regs.pc))
    | some t => exec (Instr.ofTriple s.cfg.optable t) s

/-- The state whose next step fetches and runs the instruction of a word of the opcode table (log 9): the group stands
at `PC` in the program (padded with zero groups where `PC` lies beyond it), RT names its opcode, and the engine runs. -/
def State.withFetchWord (s : State) (nbits w : Nat) : State :=
  { s with
    cfg := { s.cfg with optable := .rt }
    prog := placeAt s.prog s.work.regs.pc (groupOfWord (w % 2 ^ nbits))
    loaded := true
    engine := .running }

end Sys2Proof.Machine
end

