-- ==== Sys2Proof/Machine/Interface.lean ====
section
/-! DEFINITION. The interface operations of 00_scope.md R14 other than `step`: `construct`, `load`, `start`,
`host_port_write` and the read accessors; and a run as a sequence of what the host does between steps. -/

namespace Sys2Proof.Machine

/-- `construct(params)`: the reset state, or nothing where a check fails (70_reset_and_hazards.md R181). -/
def construct (p : Params) : Option State := if p.wf then some (State.fresh p) else none

/-- `load(bytes)`: once, in `ready`; `none` where the interface refuses it and nothing changes. A malformed image enters
`faulted` with no PC in the record (30_encoding.md R74 to R82, 60_exceptions.md R159). -/
def State.load (s : State) (image : List Byte) : Option State :=
  if s.engine = .ready ∧ s.loaded = false then
    match parseImage s.cfg.width image with
    | .error i => some (s.enterFault none (malformedProgram i))
    | .ok p => some { s with prog := p, loaded := true }
  else none

/-- `start()` (40_engine_cycle.md R98, R99). -/
def State.start (s : State) : State := if s.engine = .ready then { s with engine := .running } else s

/-- `host_port_write(i, v)`: `none` where the interface refuses it and nothing changes (60_exceptions.md R174). -/
def State.hostPortWrite (s : State) (i v : Nat) : Option State :=
  if inBounds s.cfg .ports i ∧ v < 2 ^ s.cfg.width then
    some { s with work := { s.work with segs := s.work.segs.write .ports i v } }
  else none

/-- Read accessor of a register (60_exceptions.md R176). The accessors of `state`, `fault`, `out_log` and `prog` are the
fields of `State`. -/
def State.readReg (s : State) (r : Reg) : Nat := s.work.regs.get r

/-- Read accessor of a segment: "the segment's full contents as an ordered sequence" (60_exceptions.md R176). -/
def State.dump (s : State) (g : Segment) : List Nat :=
  (List.range (segmentSize s.cfg g)).map (s.work.segs.read g)

/-- `N` (00_scope.md R10). -/
def State.instructionCount (s : State) : Nat := s.prog.length

/-- What the host can do to a constructed instance (00_scope.md R14). -/
inductive HostAction where
  | load (image : List Byte)
  | start
  | step
  | portWrite (i v : Nat)
  deriving DecidableEq, Repr

/-- One action; a refused one changes nothing (30_encoding.md R74, 60_exceptions.md R174). -/
def hostAct (a : HostAction) (s : State) : Host.Outcome State Fault Refusal :=
  match a with
  | .load image => .next ((s.load image).getD s)
  | .start => .next s.start
  | .step => Sys2Proof.Machine.step s
  | .portWrite i v => .next ((s.hostPortWrite i v).getD s)

/-- A run: the host's actions one after the other (log 12). -/
def runActions (as : List HostAction) (s : State) : Host.Outcome State Fault Refusal :=
  match as with
  | [] => .next s
  | a :: rest =>
    match hostAct a s with
    | .next t => runActions rest t
    | .fault f => .fault f
    | .refused r => .refused r

end Sys2Proof.Machine
end

