-- ==== Sys2Proof/Safety.lean ====
section
/-! DEFINITION. What counts as a safe state and a safe run, and the vocabulary the statements are written in. Nothing
here is used by the machine. -/

namespace Sys2Proof.Machine

/-! ## The invariant of every instance -/

/-- Every register holds a natural in [0, 2^W) (10_state.md R44). -/
abbrev RegFile.Fits (f : RegFile) (W : Nat) : Prop :=
  f.acc < 2 ^ W ∧ f.pr < 2 ^ W ∧ f.pc < 2 ^ W ∧ f.fr < 2 ^ W ∧ f.sp < 2 ^ W ∧ f.asp < 2 ^ W

/-- A segment in canonical form whose cells lie in range and fit W bits (10_state.md R38, R44). -/
abbrev Memory.Sound (m : Memory) (size W : Nat) : Prop := Memory.wf m = true ∧ Memory.within m size W = true

/-- The part of the invariant an operation keeps: R44 of 10_state.md on a working copy, and every waiting port event in
range. -/
structure Work.Inv (c : Params) (w : Work) : Prop where
  regsFit    : w.regs.Fits c.width
  spBound    : w.regs.sp ≤ c.stackSize
  aspBound   : w.regs.asp ≤ c.astackSize
  cache      : Memory.Sound w.segs.cache c.cacheSize c.width
  stack      : Memory.Sound w.segs.stack c.stackSize c.width
  astack     : Memory.Sound w.segs.addressStack c.astackSize c.width
  ports      : Memory.Sound w.segs.ports c.portsSize c.width
  outRange   : ∀ e ∈ w.out, e.1 < c.portsSize ∧ e.2 < 2 ^ c.width

/-- The invariant of every instance between steps: parameters `construct` accepts, 10_state.md R44, the latches clear
(R35, R36), a program `PC` can index (00_scope.md R10), a fault record exactly in `faulted` and with its kind's code
(R34), and an output log in range (R37). -/
structure State.Inv (s : State) : Prop where
  params     : s.cfg.wf = true
  work       : s.work.Inv s.cfg
  latches    : s.work.pcWritten = false ∧ s.work.haltRequest = false ∧ s.work.out = []
  progFits   : s.prog.length ≤ 2 ^ s.cfg.width
  progLoaded : s.loaded = false → s.prog = []
  faultIff   : s.fault.isSome = true ↔ s.engine = .faulted
  faultCode  : ∀ r ∈ s.fault, r.code = faultCode r.kind
  logRange   : ∀ e ∈ s.outLog, e.1 < s.cfg.portsSize ∧ e.2 < 2 ^ s.cfg.width

/-- A run has ended when the engine is halted or faulted; it ended well when it is halted (60_exceptions.md R177). -/
abbrev State.EndedWell (s : State) : Prop := s.engine = .halted

/-! ## Operands and written values -/

/-- `n` is the resolved operand of an instruction with these fields (40_engine_cycle.md R103). -/
abbrev State.HasOperand (s : State) (mf : Bool) (value : Half) (n : Nat) : Prop :=
  (mf = false ∧ n = value.toNat) ∨
    (mf = true ∧ value.toNat < s.cfg.cacheSize ∧ n = Memory.read s.work.segs.cache value.toNat)

/-- The operand's address lies outside the cache (40_engine_cycle.md R103). -/
abbrev State.OperandOutOfRange (s : State) (mf : Bool) (value : Half) : Prop :=
  mf = true ∧ s.cfg.cacheSize ≤ value.toNat

/-- Writing the integer `v` stores the natural `u` (41_core_primitives.md R117): `v` itself where it fits, its residue
under the policy `truncate` where it does not. -/
abbrev Stores (c : Params) (v : Int) (u : Nat) : Prop :=
  (0 ≤ v ∧ v < 2 ^ c.width ∧ (u : Int) = v) ∨
    (c.policy = .truncate ∧ (v < 0 ∨ 2 ^ c.width ≤ v) ∧ (u : Int) = v % 2 ^ c.width)

/-- Writing the integer `v` faults (41_core_primitives.md R117). -/
abbrev TooWide (c : Params) (v : Int) : Prop := c.policy = .fault ∧ (v < 0 ∨ 2 ^ c.width ≤ v)

/-! ## How a step ends -/

/-- The state in which a step that faults leaves the machine: the record `{kind, code, pc, seg, index}` and nothing else
changed (60_exceptions.md R169). -/
def State.faulted (s : State) (kind : FaultKind) (code : Nat) (seg : Option Place) (index : Nat) : State :=
  { s with
    engine := .faulted
    fault := some { kind := kind, code := code, pc := some s.work.regs.pc, seg := seg, index := index } }

/-- The state after an instruction that committed these registers, segments and port events and neither set `PC` nor
halted: `PC` advances, or the machine halts after its last instruction (40_engine_cycle.md R109, R111, R112). -/
def State.advanced (s : State) (regs : RegFile) (segs : Segments) (events : List PortEvent) : State :=
  { s with
    outLog := s.outLog ++ events
    engine := if regs.pc + 1 < s.prog.length then s.engine else .halted
    work :=
      { regs := { regs with pc := if regs.pc + 1 < s.prog.length then regs.pc + 1 else regs.pc }
        segs := segs, pcWritten := false, haltRequest := false, out := [] } }

/-- The state after an instruction that set `PC`: the registers hold the target (40_engine_cycle.md R110). -/
def State.jumped (s : State) (regs : RegFile) (segs : Segments) : State :=
  { s with work := { regs := regs, segs := segs, pcWritten := false, haltRequest := false, out := [] } }

/-- The state after an instruction that halted with these registers and segments (40_engine_cycle.md R113). -/
def State.halted (s : State) (regs : RegFile) (segs : Segments) : State :=
  { s with
    engine := .halted
    work := { regs := regs, segs := segs, pcWritten := false, haltRequest := false, out := [] } }

/-! ## Frames -/

/-- The parameters, the program and the load flag are as before (00_scope.md R13, 10_state.md R40). -/
abbrev State.SameProgram (s t : State) : Prop := t.cfg = s.cfg ∧ t.prog = s.prog ∧ t.loaded = s.loaded

/-- Cell `a` of segment `g` reads as before. -/
abbrev State.SameCell (s t : State) (g : Segment) (a : Nat) : Prop :=
  t.work.segs.read g a = s.work.segs.read g a

/-- Register `r` is as before. -/
abbrev State.SameReg (s t : State) (r : Reg) : Prop := t.work.regs.get r = s.work.regs.get r

/-- The same instance with another opcode table (00_scope.md R12). -/
def State.withTable (s : State) (T : OpTable) : State := { s with cfg := { s.cfg with optable := T } }

/-- The same instance with another content of the data stack and another `SP` (20_memory.md R52). -/
def State.withDataStack (s : State) (m : Memory) (sp : Nat) : State :=
  { s with work := { s.work with regs := { s.work.regs with sp := sp }, segs := { s.work.segs with stack := m } } }

/-- What an outcome becomes when its next state is changed by `f`. -/
def mapNext (f : State → State) (o : Host.Outcome State Fault Refusal) : Host.Outcome State Fault Refusal :=
  match o with
  | .next t => .next (f t)
  | .fault e => .fault e
  | .refused r => .refused r

/-! ## Operations and stacks -/

/-- The operation holds a `REG_WRITE` to `SP` or `ASP` somewhere (41_core_primitives.md R121). -/
def holdsCursorWrite : Operation → Bool
  | .done => false
  | .get _ k => holdsCursorWrite k
  | .act (.regWrite r _) k => decide (r = .sp) || decide (r = .asp) || holdsCursorWrite k
  | .act (.setPc _) k => holdsCursorWrite k
  | .act (.cacheWrite _ _) k => holdsCursorWrite k
  | .act (.portWrite _ _) k => holdsCursorWrite k
  | .act (.push _) k => holdsCursorWrite k
  | .act (.apush _) k => holdsCursorWrite k
  | .act .halt k => holdsCursorWrite k
  | .ite _ a b => holdsCursorWrite a || holdsCursorWrite b

/-- Every expression of an operation that has read `n` values names only values already read (log 5). -/
def namesOnlyReadValues (n : Nat) : Operation → Bool
  | .done => true
  | .get q k => q.scoped n && namesOnlyReadValues (n + 1) k
  | .act e k => e.scoped n && namesOnlyReadValues n k
  | .ite c a b => c.scoped n && namesOnlyReadValues n a && namesOnlyReadValues n b

/-- Pushes the values in order, the first one first (20_memory.md R60). -/
def pushAll (c : Params) (vs : List Nat) (w : Work) : Except Abort Work :=
  match vs with
  | [] => .ok w
  | v :: rest =>
    match push c (v : Int) w with
    | .error e => .error e
    | .ok w' => pushAll c rest w'

/-- Pops `n` values; the first one popped comes first (20_memory.md R60). -/
def popAll (n : Nat) (w : Work) : Except Abort (List Nat × Work) :=
  match n with
  | 0 => .ok ([], w)
  | k + 1 =>
    match pop w with
    | .error e => .error e
    | .ok p =>
      match popAll k p.2 with
      | .error e => .error e
      | .ok q => .ok (p.1 :: q.1, q.2)

end Sys2Proof.Machine
end

