-- ==== Sys2Proof/Certificates/Slice0/Obligations.lean ====
section
/-! DEFINITION. The statements for the provers. Each docstring names the rules of spec/ it formalises; the helper
predicates are those of Sys2Proof/Safety.lean. A state is any state, reached by a run or not, unless a premise says
otherwise; the premise `s.work.Inv s.cfg` (10_state.md R44) is kept by every run (`HostRunsKeepTheInvariant`). -/

open Sys2Proof Sys2Proof.Machine

/-! ## Construction, decoding and loading -/

/-- 10_state.md R42, R39: every item of the state after `construct`. -/
def Obligations.ConstructGivesResetState : Prop :=
  ∀ (p : Params) (s : State), construct p = some s →
    s.work.regs = { acc := 0, pr := 0, pc := 0, fr := 0, sp := 0, asp := 0 } ∧ s.engine = .ready ∧ s.fault = none ∧
      s.work.pcWritten = false ∧ s.work.haltRequest = false ∧ s.outLog = [] ∧ (∀ g a, s.work.segs.read g a = 0) ∧
      s.prog = [] ∧ s.instructionCount = 0 ∧ s.cfg = p

/-- 41_core_primitives.md R121, 70_reset_and_hazards.md R181, 00_scope.md R12: what `construct` refuses, and that it
accepts every parameter choice that passes the numeric checks, with RT or with a supplied table whose operations write
no cursor and name only values already read; that last condition, and the refusal without it, is the model's choice
(log 5). -/
def Obligations.ConstructChecksParameters : Prop :=
  (∀ p : Params, (p.width = 0 ∨ 2 ^ p.width - 1 < p.stackSize ∨ 2 ^ p.width - 1 < p.astackSize) → construct p = none) ∧
  (∀ (p : Params) (es : List (Byte × Operation)) (e : Byte × Operation), p.optable = .given es → e ∈ es →
    holdsCursorWrite e.2 = true → construct p = none) ∧
  (∀ (p : Params) (es : List (Byte × Operation)) (e : Byte × Operation), p.optable = .given es → e ∈ es →
    namesOnlyReadValues 0 e.2 = false → construct p = none) ∧
  (∀ p : Params, p.optable = .rt → 1 ≤ p.width → p.stackSize ≤ 2 ^ p.width - 1 → p.astackSize ≤ 2 ^ p.width - 1 →
    construct p = some (State.fresh p)) ∧
  (∀ (p : Params) (es : List (Byte × Operation)), p.optable = .given es → 1 ≤ p.width →
    p.stackSize ≤ 2 ^ p.width - 1 → p.astackSize ≤ 2 ^ p.width - 1 →
    (∀ e ∈ es, holdsCursorWrite e.2 = false ∧ namesOnlyReadValues 0 e.2 = true) → construct p = some (State.fresh p))

/-- 10_state.md R44 at reset: every constructed instance satisfies the invariant. -/
def Obligations.ConstructedInstanceSatisfiesInvariant : Prop :=
  State.reset.Inv ∧ ∀ (p : Params) (s : State), construct p = some s → s.Inv

/-- 30_encoding.md R83, R84, R85, R86: the fields of a group, for every four bytes; bits 7:1 of byte 0 are ignored. -/
def Obligations.DecodeReadsTheFields : Prop :=
  ∀ b0 b1 b2 b3 : Byte,
    ((Triple.decode b0 b1 b2 b3).mf = true ↔ b0.toNat % 2 = 1) ∧
      (Triple.decode b0 b1 b2 b3).value.toNat = b1.toNat * 256 + b2.toNat ∧
      (Triple.decode b0 b1 b2 b3).opcode = b3 ∧
      Triple.decode b0 b1 b2 b3 = Triple.decode (b0 &&& 0x01#8) b1 b2 b3

/-- A sanity statement on words written out from 42_reference_ops.md and 30_encoding.md R90. -/
def Obligations.EncodedWordsDecode : Prop :=
  decode .rt [0x00, 0x00, 0x05, 0x01] = .ok (.push false 5, []) ∧
  decode .rt [0x01, 0x00, 0x01, 0x04] = .ok (.lda true 1, []) ∧
  decode .rt [0x00, 0x00, 0x0A, 0x09] = .ok (.jz false 10, []) ∧
  decode .rt [0x00, 0x00, 0x02, 0x0C] = .ok (.inPort false 2, []) ∧
  decode .rt [0x00, 0x00, 0x14, 0x0E] = .ok (.ldp false 20, []) ∧
  decode .rt [0x00, 0x00, 0x07, 0x12] = .ok (.cmp false 7, []) ∧
  decode .rt [0x01, 0x01, 0x2C, 0x07] = .ok (.suba true 300, [])

/-- 30_encoding.md R90: decoding an encoded well-formed instruction gives it back, whatever follows it. -/
def Obligations.DecodeOfEncodeIsIdentity : Prop :=
  ∀ (T : OpTable) (i : Instr) (rest : List Byte), i.wf = true → i.namedUnder T = true →
    decode T (encode i ++ rest) = .ok (i, rest)

/-- 30_encoding.md R90, R86: decoding an encoded triple gives it back; encoding a decoded group gives it back where
byte 0 is 00 or 01, and otherwise gives the group with bits 7:1 of byte 0 cleared; so two groups that decode alike
differ at most in those bits. -/
def Obligations.EncodeOfDecodeIsIdentity : Prop :=
  (∀ t : Triple, ∃ b0 b1 b2 b3, t.encode = [b0, b1, b2, b3] ∧ Triple.decode b0 b1 b2 b3 = t) ∧
  (∀ b0 b1 b2 b3 : Byte, b0 = 0x00 ∨ b0 = 0x01 → (Triple.decode b0 b1 b2 b3).encode = [b0, b1, b2, b3]) ∧
  (∀ b0 b1 b2 b3 : Byte, (Triple.decode b0 b1 b2 b3).encode = [b0 &&& 0x01#8, b1, b2, b3]) ∧
  (∀ t u : Triple, t.encode = u.encode → t = u)

/-- 30_encoding.md R80, R81: loading an image with the `QT` header. -/
def Obligations.LoadCutsQtImages : Prop :=
  ∀ (s : State) (body : List Byte), s.engine = .ready → s.loaded = false → body.length / 4 ≤ 2 ^ s.cfg.width →
    ∃ prog, s.load (0x51#8 :: 0x54#8 :: 0x00#8 :: body) = some { s with prog := prog, loaded := true } ∧
      prog.length = body.length / 4 ∧
      ∀ i b0 b1 b2 b3, body[4 * i]? = some b0 → body[4 * i + 1]? = some b1 → body[4 * i + 2]? = some b2 →
        body[4 * i + 3]? = some b3 → prog[i]? = some (Triple.decode b0 b1 b2 b3)

/-- 30_encoding.md R77, R78, R79, R82, 60_exceptions.md R159: the images that enter `faulted` with `MalformedProgram`,
and the index each reports. -/
def Obligations.MalformedImagesFault : Prop :=
  ∀ s : State, s.engine = .ready → s.loaded = false →
    let malformed : Nat → State := fun i =>
      { s with
        engine := .faulted
        fault := some { kind := .malformedProgram, code := 1, pc := none, seg := none, index := i } }
    (∀ image : List Byte, (∀ b ∈ image, b ≠ 0x00#8) → s.load image = some (malformed image.length)) ∧
    (∀ tag rest : List Byte, (∀ b ∈ tag, b ≠ 0x00#8) → tag ≠ [0x51#8, 0x54#8] →
      s.load (tag ++ 0x00#8 :: rest) = some (malformed 0)) ∧
    (∀ body : List Byte, 2 ^ s.cfg.width < body.length / 4 →
      s.load (0x51#8 :: 0x54#8 :: 0x00#8 :: body) = some (malformed (3 + 4 * 2 ^ s.cfg.width)))

/-- 30_encoding.md R74: a `load` outside `ready`, and a second `load`, is refused and changes nothing. -/
def Obligations.LoadRunsOnceInReady : Prop :=
  (∀ (s : State) (image : List Byte), s.engine ≠ .ready → s.load image = none ∧ hostAct (.load image) s = .next s) ∧
  (∀ (s t : State) (image image2 : List Byte), s.load image = some t →
    t.load image2 = none ∧ hostAct (.load image2) t = .next t)

/-- 40_engine_cycle.md R98, R99. -/
def Obligations.StartEntersRunning : Prop :=
  (∀ s : State, s.engine = .ready → s.start = { s with engine := .running }) ∧
  (∀ s : State, s.engine ≠ .ready → s.start = s)

/-- 60_exceptions.md R174: a host port write sets one port cell, which `PORT_READ` then returns, and changes nothing else; out of range it is refused. -/
def Obligations.HostPortWriteSetsOneCell : Prop :=
  ∀ (s : State) (i v : Nat),
    (i < s.cfg.portsSize → v < 2 ^ s.cfg.width → Memory.wf s.work.segs.ports = true →
      ∃ m, s.hostPortWrite i v = some { s with work := { s.work with segs := { s.work.segs with ports := m } } } ∧
        Memory.read m i = v ∧ (∀ a, a ≠ i → Memory.read m a = Memory.read s.work.segs.ports a) ∧
        Memory.wf m = true ∧
        ∀ (x : OpContext) (env : List Nat) (e : NatExpr) (w : Work), w.segs.ports = m → evalNat env e = i →
          runQuery s.cfg x env (.portRead e) w = .ok (v, w)) ∧
    ((s.cfg.portsSize ≤ i ∨ 2 ^ s.cfg.width ≤ v) → s.hostPortWrite i v = none ∧ hostAct (.portWrite i v) s = .next s)

/-! ## The engine -/

/-- 40_engine_cycle.md R114, R115, R116: outside `running` any number of steps changes nothing. -/
def Obligations.StepsOutsideRunningChangeNothing : Prop :=
  ∀ (k : Nat) (s : State), s.engine ≠ .running → Host.Core.run Sys2Proof.core k s = .next s

/-- 40_engine_cycle.md R102, R101: a fetch at or beyond `N` faults, and so does the first step of an empty program, whether
none was loaded or one without groups. -/
def Obligations.FetchOutOfRangeFaults : Prop :=
  (∀ s : State, s.engine = .running → s.prog.length ≤ s.work.regs.pc →
    step s = .next (s.faulted .programCounterOutOfRange 8 none s.work.regs.pc)) ∧
  (∀ (p : Params) (s t : State), construct p = some s → t = s ∨ s.load [0x51#8, 0x54#8, 0x00#8] = some t →
    t.instructionCount = 0 ∧ t.start.engine = .running ∧
      step t.start = .next (t.start.faulted .programCounterOutOfRange 8 none 0))

/-- 40_engine_cycle.md R100, R102: in `running`, where the group at `PC` decodes to an instruction, the step is that
instruction's `exec`, with nothing around it; the group is well formed as an instruction. -/
def Obligations.StepRunsDecodedInstruction : Prop :=
  ∀ (s : State) (b0 b1 b2 b3 : Byte) (i : Instr), s.engine = .running →
    s.prog[s.work.regs.pc]? = some (Triple.decode b0 b1 b2 b3) → decode s.cfg.optable [b0, b1, b2, b3] = .ok (i, []) →
    step s = exec i s ∧ i.wf = true

/-- 40_engine_cycle.md R103, R104, 60_exceptions.md R170: an address operand out of range faults before anything else,
for every instruction, whether it uses the operand or not and whether its opcode is known or not. -/
def Obligations.OperandOutOfRangeFaultsFirst : Prop :=
  ∀ (i : Instr) (s : State), i.toTriple.mf = true → s.cfg.cacheSize ≤ i.toTriple.value.toNat →
    exec i s = .next (s.faulted .addressOutOfRange 3 (some (.segment .cache)) i.toTriple.value.toNat)

/-! ## The instructions of RT: encoding, effect and exceptions -/

/-- 42_reference_ops.md R137. -/
def Obligations.HaltHalts : Prop :=
  ∀ (mf : Bool) (value : Half) (s : State) (n : Nat), s.HasOperand mf value n →
    Instr.ofRt ⟨mf, value, 0x00⟩ = .halt mf value ∧
    exec (.halt mf value) s = .next (s.halted s.work.regs s.work.segs) ∧
    step (s.halted s.work.regs s.work.segs) = .next (s.halted s.work.regs s.work.segs)

/-- 42_reference_ops.md R138. -/
def Obligations.PushPushesOperand : Prop :=
  ∀ (mf : Bool) (value : Half) (s : State) (n : Nat), s.HasOperand mf value n →
    Instr.ofRt ⟨mf, value, 0x01⟩ = .push mf value ∧ encode (.push false 5) = [0x00, 0x00, 0x05, 0x01] ∧
    (∀ u, s.work.regs.sp < s.cfg.stackSize → Stores s.cfg n u →
      exec (.push mf value) s =
        .next (s.advanced { s.work.regs with sp := s.work.regs.sp + 1 }
          { s.work.segs with stack := Memory.write s.work.segs.stack s.work.regs.sp u } [])) ∧
    (s.cfg.stackSize ≤ s.work.regs.sp →
      exec (.push mf value) s = .next (s.faulted .stackOverflow 4 (some (.segment .stack)) s.work.regs.sp)) ∧
    (s.work.regs.sp < s.cfg.stackSize → TooWide s.cfg n →
      exec (.push mf value) s = .next (s.faulted .cellWidthExceeded 9 (some (.segment .stack)) s.work.regs.sp))

/-- 42_reference_ops.md R139. -/
def Obligations.PopLoadsTopOfStack : Prop :=
  ∀ (mf : Bool) (value : Half) (s : State) (n : Nat), s.HasOperand mf value n → s.work.Inv s.cfg →
    Instr.ofRt ⟨mf, value, 0x02⟩ = .pop mf value ∧ encode (.pop false 0) = [0x00, 0x00, 0x00, 0x02] ∧
    (s.work.regs.sp ≠ 0 →
      exec (.pop mf value) s =
        .next (s.advanced
          { s.work.regs with
            acc := Memory.read s.work.segs.stack (s.work.regs.sp - 1), sp := s.work.regs.sp - 1 }
          s.work.segs [])) ∧
    (s.work.regs.sp = 0 →
      exec (.pop mf value) s = .next (s.faulted .stackUnderflow 5 (some (.segment .stack)) 0))

/-- 42_reference_ops.md R140. -/
def Obligations.AddReplacesTopTwoBySum : Prop :=
  ∀ (mf : Bool) (value : Half) (s : State) (n : Nat), s.HasOperand mf value n → s.work.Inv s.cfg →
    let a := Memory.read s.work.segs.stack (s.work.regs.sp - 2)
    let b := Memory.read s.work.segs.stack (s.work.regs.sp - 1)
    Instr.ofRt ⟨mf, value, 0x03⟩ = .add mf value ∧ encode (.add false 0) = [0x00, 0x00, 0x00, 0x03] ∧
    (∀ u, 2 ≤ s.work.regs.sp → Stores s.cfg ((a + b : Nat) : Int) u →
      exec (.add mf value) s =
        .next (s.advanced { s.work.regs with sp := s.work.regs.sp - 1 }
          { s.work.segs with stack := Memory.write s.work.segs.stack (s.work.regs.sp - 2) u } [])) ∧
    (s.work.regs.sp < 2 →
      exec (.add mf value) s = .next (s.faulted .stackUnderflow 5 (some (.segment .stack)) 0)) ∧
    (2 ≤ s.work.regs.sp → TooWide s.cfg ((a + b : Nat) : Int) →
      exec (.add mf value) s =
        .next (s.faulted .cellWidthExceeded 9 (some (.segment .stack)) (s.work.regs.sp - 2)))

/-- 42_reference_ops.md R141. -/
def Obligations.LdaLoadsOperand : Prop :=
  ∀ (mf : Bool) (value : Half) (s : State) (n : Nat), s.HasOperand mf value n →
    Instr.ofRt ⟨mf, value, 0x04⟩ = .lda mf value ∧ encode (.lda false 3) = [0x00, 0x00, 0x03, 0x04] ∧
    encode (.lda true 1) = [0x01, 0x00, 0x01, 0x04] ∧
    (∀ u, Stores s.cfg n u →
      exec (.lda mf value) s = .next (s.advanced { s.work.regs with acc := u } s.work.segs [])) ∧
    (TooWide s.cfg n →
      exec (.lda mf value) s = .next (s.faulted .cellWidthExceeded 9 (some (.register .acc)) 0))

/-- 42_reference_ops.md R142: the index is the raw `value` whatever `mf` is, and out of range it faults whatever `mf`
is. -/
def Obligations.StaStoresAccumulator : Prop :=
  ∀ (mf : Bool) (value : Half) (s : State), s.work.Inv s.cfg →
    Instr.ofRt ⟨mf, value, 0x05⟩ = .sta mf value ∧ encode (.sta false 0) = [0x00, 0x00, 0x00, 0x05] ∧
    (value.toNat < s.cfg.cacheSize →
      exec (.sta mf value) s =
        .next (s.advanced s.work.regs
          { s.work.segs with cache := Memory.write s.work.segs.cache value.toNat s.work.regs.acc } [])) ∧
    (s.cfg.cacheSize ≤ value.toNat →
      exec (.sta mf value) s = .next (s.faulted .addressOutOfRange 3 (some (.segment .cache)) value.toNat))

/-- 42_reference_ops.md R143. -/
def Obligations.AddaAddsOperand : Prop :=
  ∀ (mf : Bool) (value : Half) (s : State) (n : Nat), s.HasOperand mf value n →
    Instr.ofRt ⟨mf, value, 0x06⟩ = .adda mf value ∧ encode (.adda true 0) = [0x01, 0x00, 0x00, 0x06] ∧
    (∀ u, Stores s.cfg (s.work.regs.acc + n) u →
      exec (.adda mf value) s = .next (s.advanced { s.work.regs with acc := u } s.work.segs [])) ∧
    (TooWide s.cfg (s.work.regs.acc + n) →
      exec (.adda mf value) s = .next (s.faulted .cellWidthExceeded 9 (some (.register .acc)) 0))

/-- 42_reference_ops.md R144: the difference is an integer, and a negative one is too wide. -/
def Obligations.SubaSubtractsOperand : Prop :=
  ∀ (mf : Bool) (value : Half) (s : State) (n : Nat), s.HasOperand mf value n →
    Instr.ofRt ⟨mf, value, 0x07⟩ = .suba mf value ∧ encode (.suba false 1) = [0x00, 0x00, 0x01, 0x07] ∧
    (∀ u, Stores s.cfg ((s.work.regs.acc : Int) - n) u →
      exec (.suba mf value) s = .next (s.advanced { s.work.regs with acc := u } s.work.segs [])) ∧
    (TooWide s.cfg ((s.work.regs.acc : Int) - n) →
      exec (.suba mf value) s = .next (s.faulted .cellWidthExceeded 9 (some (.register .acc)) 0))

/-- 42_reference_ops.md R145: the jump, its width fault, the fault of the next step where the target is at or beyond
`N`, and the endless loop of a jump to its own index, immediate or read from the cache. -/
def Obligations.JmpSetsPc : Prop :=
  (∀ (mf : Bool) (value : Half) (s : State) (n : Nat), s.HasOperand mf value n →
    Instr.ofRt ⟨mf, value, 0x08⟩ = .jmp mf value ∧ encode (.jmp false 2) = [0x00, 0x00, 0x02, 0x08] ∧
    (∀ u, Stores s.cfg n u →
      exec (.jmp mf value) s = .next (s.jumped { s.work.regs with pc := u } s.work.segs) ∧
      (s.engine = .running → s.prog.length ≤ u →
        step (s.jumped { s.work.regs with pc := u } s.work.segs) =
          .next ((s.jumped { s.work.regs with pc := u } s.work.segs).faulted .programCounterOutOfRange 8 none u))) ∧
    (TooWide s.cfg n →
      exec (.jmp mf value) s = .next (s.faulted .cellWidthExceeded 9 (some (.register .pc)) 2))) ∧
  (∀ (mf : Bool) (value : Half) (s : State) (n k : Nat), s.HasOperand mf value n → s.cfg.optable = .rt →
    s.engine = .running → s.fetch = some ⟨mf, value, 0x08⟩ → s.work.regs.pc = n → n < 2 ^ s.cfg.width →
    ∃ t, Host.Core.run Sys2Proof.core k s = .next t ∧ t.engine = .running ∧ t.work.regs = s.work.regs)

/-- 42_reference_ops.md R146: it tests `ACC`; taken it does as JMP; not taken it advances or halts by exhaustion. -/
def Obligations.JzJumpsOnZeroAccumulator : Prop :=
  ∀ (mf : Bool) (value : Half) (s : State) (n : Nat), s.HasOperand mf value n →
    Instr.ofRt ⟨mf, value, 0x09⟩ = .jz mf value ∧ encode (.jz false 10) = [0x00, 0x00, 0x0A, 0x09] ∧
    (∀ u, s.work.regs.acc = 0 → Stores s.cfg n u →
      exec (.jz mf value) s = .next (s.jumped { s.work.regs with pc := u } s.work.segs) ∧
      (s.engine = .running → s.prog.length ≤ u →
        step (s.jumped { s.work.regs with pc := u } s.work.segs) =
          .next ((s.jumped { s.work.regs with pc := u } s.work.segs).faulted .programCounterOutOfRange 8 none u))) ∧
    (s.work.regs.acc = 0 → TooWide s.cfg n →
      exec (.jz mf value) s = .next (s.faulted .cellWidthExceeded 9 (some (.register .pc)) 2)) ∧
    (s.work.regs.acc ≠ 0 → exec (.jz mf value) s = .next (s.advanced s.work.regs s.work.segs []))

/-- 42_reference_ops.md R147: the return index `PC + 1` goes to the address stack, then `PC` takes the operand; a RET
run next jumps to the return index, and where that is `N` (a call as the last instruction) the fetch after it faults. -/
def Obligations.CallPushesReturnIndex : Prop :=
  ∀ (mf : Bool) (value : Half) (s : State) (n : Nat), s.HasOperand mf value n →
    Instr.ofRt ⟨mf, value, 0x0A⟩ = .call mf value ∧ encode (.call false 3) = [0x00, 0x00, 0x03, 0x0A] ∧
    (∀ r u, s.work.regs.asp < s.cfg.astackSize → Stores s.cfg (s.work.regs.pc + 1) r → Stores s.cfg n u →
      exec (.call mf value) s =
        .next (s.jumped { s.work.regs with pc := u, asp := s.work.regs.asp + 1 }
          { s.work.segs with
            addressStack := Memory.write s.work.segs.addressStack s.work.regs.asp r })) ∧
    (s.cfg.astackSize ≤ s.work.regs.asp →
      exec (.call mf value) s =
        .next (s.faulted .addressStackOverflow 6 (some (.segment .addressStack)) s.work.regs.asp)) ∧
    (s.work.regs.asp < s.cfg.astackSize → TooWide s.cfg (s.work.regs.pc + 1) →
      exec (.call mf value) s =
        .next (s.faulted .cellWidthExceeded 9 (some (.segment .addressStack)) s.work.regs.asp)) ∧
    (∀ r, s.work.regs.asp < s.cfg.astackSize → Stores s.cfg (s.work.regs.pc + 1) r → TooWide s.cfg n →
      exec (.call mf value) s = .next (s.faulted .cellWidthExceeded 9 (some (.register .pc)) 2)) ∧
    (∀ (t : State) (m2 : Bool) (v2 : Half) (k : Nat), Memory.wf s.work.segs.addressStack = true →
      s.work.regs.asp < s.cfg.astackSize → s.work.regs.pc + 1 < 2 ^ s.cfg.width → exec (.call mf value) s = .next t →
      t.engine ≠ .faulted → t.HasOperand m2 v2 k →
      ∃ u, exec (.ret m2 v2) t = .next u ∧ u.work.regs.pc = s.work.regs.pc + 1 ∧ u.work.regs.asp = s.work.regs.asp ∧
        (s.engine = .running → s.prog.length ≤ s.work.regs.pc + 1 →
          step u = .next (u.faulted .programCounterOutOfRange 8 none (s.work.regs.pc + 1))))

/-- 42_reference_ops.md R148. -/
def Obligations.RetPopsReturnIndex : Prop :=
  ∀ (mf : Bool) (value : Half) (s : State) (n : Nat), s.HasOperand mf value n → s.work.Inv s.cfg →
    Instr.ofRt ⟨mf, value, 0x0B⟩ = .ret mf value ∧ encode (.ret false 0) = [0x00, 0x00, 0x00, 0x0B] ∧
    (s.work.regs.asp ≠ 0 →
      exec (.ret mf value) s =
        .next (s.jumped
          { s.work.regs with
            pc := Memory.read s.work.segs.addressStack (s.work.regs.asp - 1), asp := s.work.regs.asp - 1 }
          s.work.segs)) ∧
    (s.work.regs.asp = 0 →
      exec (.ret mf value) s = .next (s.faulted .addressStackUnderflow 7 (some (.segment .addressStack)) 0))

/-- 42_reference_ops.md R149. -/
def Obligations.InReadsPort : Prop :=
  ∀ (mf : Bool) (value : Half) (s : State) (n : Nat), s.HasOperand mf value n → s.work.Inv s.cfg →
    Instr.ofRt ⟨mf, value, 0x0C⟩ = .inPort mf value ∧ encode (.inPort false 2) = [0x00, 0x00, 0x02, 0x0C] ∧
    (n < s.cfg.portsSize →
      exec (.inPort mf value) s =
        .next (s.advanced { s.work.regs with acc := Memory.read s.work.segs.ports n } s.work.segs [])) ∧
    (s.cfg.portsSize ≤ n →
      exec (.inPort mf value) s = .next (s.faulted .addressOutOfRange 3 (some (.segment .ports)) n))

/-- 42_reference_ops.md R150: the port cell is written and one event is committed. -/
def Obligations.OutWritesPort : Prop :=
  ∀ (mf : Bool) (value : Half) (s : State) (n : Nat), s.HasOperand mf value n → s.work.Inv s.cfg →
    Instr.ofRt ⟨mf, value, 0x0D⟩ = .outPort mf value ∧ encode (.outPort false 0) = [0x00, 0x00, 0x00, 0x0D] ∧
    (n < s.cfg.portsSize →
      exec (.outPort mf value) s =
        .next (s.advanced s.work.regs
          { s.work.segs with ports := Memory.write s.work.segs.ports n s.work.regs.acc } [(n, s.work.regs.acc)])) ∧
    (s.cfg.portsSize ≤ n →
      exec (.outPort mf value) s = .next (s.faulted .addressOutOfRange 3 (some (.segment .ports)) n))

/-- 42_reference_ops.md R151. -/
def Obligations.LdpLoadsPointer : Prop :=
  ∀ (mf : Bool) (value : Half) (s : State) (n : Nat), s.HasOperand mf value n →
    Instr.ofRt ⟨mf, value, 0x0E⟩ = .ldp mf value ∧ encode (.ldp false 20) = [0x00, 0x00, 0x14, 0x0E] ∧
    (∀ u, Stores s.cfg n u →
      exec (.ldp mf value) s = .next (s.advanced { s.work.regs with pr := u } s.work.segs [])) ∧
    (TooWide s.cfg n →
      exec (.ldp mf value) s = .next (s.faulted .cellWidthExceeded 9 (some (.register .pr)) 1))

/-- 42_reference_ops.md R152. -/
def Obligations.LdiLoadsThroughPointer : Prop :=
  ∀ (mf : Bool) (value : Half) (s : State) (n : Nat), s.HasOperand mf value n → s.work.Inv s.cfg →
    Instr.ofRt ⟨mf, value, 0x0F⟩ = .ldi mf value ∧ encode (.ldi false 0) = [0x00, 0x00, 0x00, 0x0F] ∧
    (s.work.regs.pr < s.cfg.cacheSize →
      exec (.ldi mf value) s =
        .next (s.advanced { s.work.regs with acc := Memory.read s.work.segs.cache s.work.regs.pr } s.work.segs [])) ∧
    (s.cfg.cacheSize ≤ s.work.regs.pr →
      exec (.ldi mf value) s = .next (s.faulted .addressOutOfRange 3 (some (.segment .cache)) s.work.regs.pr))

/-- 42_reference_ops.md R153. -/
def Obligations.StiStoresThroughPointer : Prop :=
  ∀ (mf : Bool) (value : Half) (s : State) (n : Nat), s.HasOperand mf value n → s.work.Inv s.cfg →
    Instr.ofRt ⟨mf, value, 0x10⟩ = .sti mf value ∧ encode (.sti false 0) = [0x00, 0x00, 0x00, 0x10] ∧
    (s.work.regs.pr < s.cfg.cacheSize →
      exec (.sti mf value) s =
        .next (s.advanced s.work.regs
          { s.work.segs with cache := Memory.write s.work.segs.cache s.work.regs.pr s.work.regs.acc } [])) ∧
    (s.cfg.cacheSize ≤ s.work.regs.pr →
      exec (.sti mf value) s = .next (s.faulted .addressOutOfRange 3 (some (.segment .cache)) s.work.regs.pr))

/-- 42_reference_ops.md R154. -/
def Obligations.PushaPushesAccumulator : Prop :=
  ∀ (mf : Bool) (value : Half) (s : State) (n : Nat), s.HasOperand mf value n → s.work.Inv s.cfg →
    Instr.ofRt ⟨mf, value, 0x11⟩ = .pusha mf value ∧ encode (.pusha false 0) = [0x00, 0x00, 0x00, 0x11] ∧
    (s.work.regs.sp < s.cfg.stackSize →
      exec (.pusha mf value) s =
        .next (s.advanced { s.work.regs with sp := s.work.regs.sp + 1 }
          { s.work.segs with stack := Memory.write s.work.segs.stack s.work.regs.sp s.work.regs.acc } [])) ∧
    (s.cfg.stackSize ≤ s.work.regs.sp →
      exec (.pusha mf value) s = .next (s.faulted .stackOverflow 4 (some (.segment .stack)) s.work.regs.sp))

/-- 42_reference_ops.md R155: the whole of `FR` becomes 1 or 0; the comparison is of naturals and never faults. The
premise `1 ≤ W` is 00_scope.md R7. -/
def Obligations.CmpSetsFlagRegister : Prop :=
  ∀ (mf : Bool) (value : Half) (s : State) (n : Nat), s.HasOperand mf value n → 1 ≤ s.cfg.width →
    Instr.ofRt ⟨mf, value, 0x12⟩ = .cmp mf value ∧ encode (.cmp false 7) = [0x00, 0x00, 0x07, 0x12] ∧
    (s.work.regs.acc = n →
      exec (.cmp mf value) s = .next (s.advanced { s.work.regs with fr := 1 } s.work.segs [])) ∧
    (s.work.regs.acc ≠ n ∨ (s.work.regs.acc < 2 ^ s.cfg.width ∧ 2 ^ s.cfg.width ≤ n) →
      exec (.cmp mf value) s = .next (s.advanced { s.work.regs with fr := 0 } s.work.segs []))

/-- 42_reference_ops.md R156: it tests `FR`; taken it does as JMP; not taken it advances or halts by exhaustion. -/
def Obligations.JfJumpsOnFlag : Prop :=
  ∀ (mf : Bool) (value : Half) (s : State) (n : Nat), s.HasOperand mf value n →
    Instr.ofRt ⟨mf, value, 0x13⟩ = .jf mf value ∧ encode (.jf false 8) = [0x00, 0x00, 0x08, 0x13] ∧
    (∀ u, s.work.regs.fr ≠ 0 → Stores s.cfg n u →
      exec (.jf mf value) s = .next (s.jumped { s.work.regs with pc := u } s.work.segs) ∧
      (s.engine = .running → s.prog.length ≤ u →
        step (s.jumped { s.work.regs with pc := u } s.work.segs) =
          .next ((s.jumped { s.work.regs with pc := u } s.work.segs).faulted .programCounterOutOfRange 8 none u))) ∧
    (s.work.regs.fr ≠ 0 → TooWide s.cfg n →
      exec (.jf mf value) s = .next (s.faulted .cellWidthExceeded 9 (some (.register .pc)) 2)) ∧
    (s.work.regs.fr = 0 → exec (.jf mf value) s = .next (s.advanced s.work.regs s.work.segs []))

/-- 42_reference_ops.md R157: every opcode from 0x14 on has no operation under RT and faults at dispatch, unless operand
resolution faulted first. -/
def Obligations.UnassignedOpcodeFaults : Prop :=
  ∀ (mf : Bool) (value : Half) (o : Byte) (s : State), 0x14 ≤ o.toNat →
    lookupOp .rt o = none ∧ Instr.ofRt ⟨mf, value, o⟩ = .unassigned mf value o ∧
    (∀ n, s.HasOperand mf value n →
      exec (.unassigned mf value o) s = .next (s.faulted .unknownOpcode 2 none o.toNat)) ∧
    (s.OperandOutOfRange mf value →
      exec (.unassigned mf value o) s =
        .next (s.faulted .addressOutOfRange 3 (some (.segment .cache)) value.toNat))

/-! ## Dispatch through any opcode table -/

/-- 40_engine_cycle.md R105, 60_exceptions.md R160: an opcode without an entry in the instance's own table. -/
def Obligations.DispatchFaultsOnUnknownOpcode : Prop :=
  ∀ (mf : Bool) (value : Half) (o : Byte) (s : State) (n : Nat), s.HasOperand mf value n →
    lookupOp s.cfg.optable o = none →
    exec (.dispatch mf value o) s = .next (s.faulted .unknownOpcode 2 none o.toNat)

/-- 40_engine_cycle.md R105, R108 to R113: an opcode with an operation that runs without a fault on the cleared working
copy; its registers and segments are committed, its port events appended, and exactly one of R113, R110, R111, R112
decides `PC` and the engine state. An operation whose first fault is `f` is entered as that fault and commits nothing. The last clause is an operation with no action, which always completes. -/
def Obligations.DispatchRunsTableOperation : Prop :=
  ∀ (mf : Bool) (value : Half) (o : Byte) (s : State) (n : Nat), s.HasOperand mf value n →
    (∀ op w, lookupOp s.cfg.optable o = some op →
      runOperation s.cfg { operand := n, mf := mf, value := value.toNat } op []
        { s.work with pcWritten := false, haltRequest := false, out := [] } = .ok w →
      ∃ t, exec (.dispatch mf value o) s = .next t ∧ t.work.segs = w.segs ∧ t.outLog = s.outLog ++ w.out ∧
        t.fault = s.fault ∧ s.SameProgram t ∧
        t.work.pcWritten = false ∧ t.work.haltRequest = false ∧ t.work.out = [] ∧
        (w.haltRequest = true → t.engine = .halted ∧ t.work.regs = w.regs) ∧
        (w.haltRequest = false → w.pcWritten = true → t.engine = s.engine ∧ t.work.regs = w.regs) ∧
        (w.haltRequest = false → w.pcWritten = false → w.regs.pc + 1 < s.prog.length →
          t.engine = s.engine ∧ t.work.regs = { w.regs with pc := w.regs.pc + 1 }) ∧
        (w.haltRequest = false → w.pcWritten = false → s.prog.length ≤ w.regs.pc + 1 →
          t.engine = .halted ∧ t.work.regs = w.regs)) ∧
    (∀ op f, lookupOp s.cfg.optable o = some op →
      runOperation s.cfg { operand := n, mf := mf, value := value.toNat } op []
        { s.work with pcWritten := false, haltRequest := false, out := [] } = .error (.raise f) →
      exec (.dispatch mf value o) s = .next (s.faulted f.kind (faultCode f.kind) f.seg f.index)) ∧
    (lookupOp s.cfg.optable o = some .done →
      exec (.dispatch mf value o) s = .next (s.advanced s.work.regs s.work.segs []))

/-- 42_reference_ops.md R135, 00_scope.md R12: an instance with RT supplied as data takes the same steps as one whose
table is RT, up to the table itself. -/
def Obligations.RtAsDataTakesTheSameSteps : Prop :=
  ∀ s : State, s.cfg.optable = .rt →
    step (s.withTable (.given rtEntries)) = mapNext (fun t => t.withTable (.given rtEntries)) (step s)

/-! ## The primitives, for every operation of every table -/

/-- 41_core_primitives.md R119, R120, R122, with the register numbers of 10_state.md R30 in the width fault. -/
def Obligations.RegisterPrimitives : Prop :=
  ∀ (c : Params) (x : OpContext) (env : List Nat) (w : Work) (v : IntExpr),
    (∀ r, runQuery c x env (.regRead r) w = .ok (w.regs.get r, w)) ∧
    (∀ u, Stores c (evalInt env v) u →
      runEffect c env (.regWrite .acc v) w = .ok { w with regs := { w.regs with acc := u } } ∧
      runEffect c env (.regWrite .pr v) w = .ok { w with regs := { w.regs with pr := u } } ∧
      runEffect c env (.regWrite .fr v) w = .ok { w with regs := { w.regs with fr := u } } ∧
      runEffect c env (.setPc v) w = .ok { w with regs := { w.regs with pc := u }, pcWritten := true } ∧
      runEffect c env (.regWrite .pc v) w = .ok { w with regs := { w.regs with pc := u }, pcWritten := true }) ∧
    (TooWide c (evalInt env v) →
      let tooWide : Reg → Nat → Except Abort Work := fun r i =>
        .error (.raise { kind := .cellWidthExceeded, seg := some (.register r), index := i })
      runEffect c env (.regWrite .acc v) w = tooWide .acc 0 ∧ runEffect c env (.regWrite .pr v) w = tooWide .pr 1 ∧
      runEffect c env (.setPc v) w = tooWide .pc 2 ∧ runEffect c env (.regWrite .pc v) w = tooWide .pc 2 ∧
      runEffect c env (.regWrite .fr v) w = tooWide .fr 3)

/-- 41_core_primitives.md R123, R124: the bounds check comes before the width check; a read after the write returns the
written value, and the operand already resolved does not change. -/
def Obligations.CachePrimitives : Prop :=
  ∀ (c : Params) (x : OpContext) (env : List Nat) (w : Work) (i : NatExpr) (v : IntExpr),
    let a := evalNat env i
    let outside : Abort := .raise { kind := .addressOutOfRange, seg := some (.segment .cache), index := a }
    (a < c.cacheSize → runQuery c x env (.cacheRead i) w = .ok (Memory.read w.segs.cache a, w)) ∧
    (c.cacheSize ≤ a → runQuery c x env (.cacheRead i) w = .error outside ∧
      runEffect c env (.cacheWrite i v) w = .error outside) ∧
    (∀ u, a < c.cacheSize → Stores c (evalInt env v) u → runEffect c env (.cacheWrite i v) w =
      .ok { w with segs := { w.segs with cache := Memory.write w.segs.cache a u } }) ∧
    (a < c.cacheSize → TooWide c (evalInt env v) → runEffect c env (.cacheWrite i v) w =
      .error (.raise { kind := .cellWidthExceeded, seg := some (.segment .cache), index := a })) ∧
    (∀ u t, Memory.wf w.segs.cache = true → Stores c (evalInt env v) u → runEffect c env (.cacheWrite i v) w = .ok t →
      runQuery c x env (.cacheRead i) t = .ok (u, t) ∧ runQuery c x env .operand t = .ok (x.operand, t))

/-- 41_core_primitives.md R125, R126: a port write leaves one event with the stored value; a read after the write
returns the written value. -/
def Obligations.PortPrimitives : Prop :=
  ∀ (c : Params) (x : OpContext) (env : List Nat) (w : Work) (i : NatExpr) (v : IntExpr),
    let p := evalNat env i
    let outside : Abort := .raise { kind := .addressOutOfRange, seg := some (.segment .ports), index := p }
    (p < c.portsSize → runQuery c x env (.portRead i) w = .ok (Memory.read w.segs.ports p, w)) ∧
    (c.portsSize ≤ p → runQuery c x env (.portRead i) w = .error outside ∧
      runEffect c env (.portWrite i v) w = .error outside) ∧
    (∀ u, p < c.portsSize → Stores c (evalInt env v) u → runEffect c env (.portWrite i v) w =
      .ok { w with segs := { w.segs with ports := Memory.write w.segs.ports p u }, out := w.out ++ [(p, u)] }) ∧
    (p < c.portsSize → TooWide c (evalInt env v) → runEffect c env (.portWrite i v) w =
      .error (.raise { kind := .cellWidthExceeded, seg := some (.segment .ports), index := p })) ∧
    (∀ u t, Memory.wf w.segs.ports = true → Stores c (evalInt env v) u → runEffect c env (.portWrite i v) w = .ok t →
      runQuery c x env (.portRead i) t = .ok (u, t))

/-- 41_core_primitives.md R127, R128: write then increment, decrement then read; the pointer check comes first; a
pop right after a push returns the stored value and leaves its cell as it is. -/
def Obligations.DataStackPrimitives : Prop :=
  ∀ (c : Params) (x : OpContext) (env : List Nat) (w : Work) (v : IntExpr),
    (∀ u, w.regs.sp < c.stackSize → Stores c (evalInt env v) u → runEffect c env (.push v) w =
      .ok { w with
        segs := { w.segs with stack := Memory.write w.segs.stack w.regs.sp u }
        regs := { w.regs with sp := w.regs.sp + 1 } }) ∧
    (c.stackSize ≤ w.regs.sp → runEffect c env (.push v) w =
      .error (.raise { kind := .stackOverflow, seg := some (.segment .stack), index := w.regs.sp })) ∧
    (w.regs.sp < c.stackSize → TooWide c (evalInt env v) → runEffect c env (.push v) w =
      .error (.raise { kind := .cellWidthExceeded, seg := some (.segment .stack), index := w.regs.sp })) ∧
    (w.regs.sp ≠ 0 → runQuery c x env .pop w =
      .ok (Memory.read w.segs.stack (w.regs.sp - 1), { w with regs := { w.regs with sp := w.regs.sp - 1 } })) ∧
    (w.regs.sp = 0 → runQuery c x env .pop w =
      .error (.raise { kind := .stackUnderflow, seg := some (.segment .stack), index := 0 })) ∧
    (∀ u t, Memory.wf w.segs.stack = true → Stores c (evalInt env v) u → runEffect c env (.push v) w = .ok t →
      runQuery c x env .pop t = .ok (u, { t with regs := w.regs }))

/-- 41_core_primitives.md R129, R130: as the data stack, with `ASP` and the address stack; `SP` and the data stack take
no part. -/
def Obligations.AddressStackPrimitives : Prop :=
  ∀ (c : Params) (x : OpContext) (env : List Nat) (w : Work) (v : IntExpr),
    (∀ u, w.regs.asp < c.astackSize → Stores c (evalInt env v) u → runEffect c env (.apush v) w =
      .ok { w with
        segs := { w.segs with addressStack := Memory.write w.segs.addressStack w.regs.asp u }
        regs := { w.regs with asp := w.regs.asp + 1 } }) ∧
    (c.astackSize ≤ w.regs.asp → runEffect c env (.apush v) w =
      .error (.raise { kind := .addressStackOverflow, seg := some (.segment .addressStack), index := w.regs.asp })) ∧
    (w.regs.asp < c.astackSize → TooWide c (evalInt env v) → runEffect c env (.apush v) w =
      .error (.raise { kind := .cellWidthExceeded, seg := some (.segment .addressStack), index := w.regs.asp })) ∧
    (w.regs.asp ≠ 0 → runQuery c x env .apop w =
      .ok (Memory.read w.segs.addressStack (w.regs.asp - 1),
        { w with regs := { w.regs with asp := w.regs.asp - 1 } })) ∧
    (w.regs.asp = 0 → runQuery c x env .apop w =
      .error (.raise { kind := .addressStackUnderflow, seg := some (.segment .addressStack), index := 0 })) ∧
    (∀ u t, Memory.wf w.segs.addressStack = true → Stores c (evalInt env v) u → runEffect c env (.apush v) w = .ok t →
      runQuery c x env .apop t = .ok (u, { t with regs := w.regs }))

/-- 41_core_primitives.md R131, R132: `HALT` only sets its latch; the context reads give the resolved operand, the
memory flag (as 0 or 1: log 4) and the raw `value`. -/
def Obligations.HaltAndContextPrimitives : Prop :=
  ∀ (c : Params) (x : OpContext) (env : List Nat) (w : Work),
    runEffect c env .halt w = .ok { w with haltRequest := true } ∧
    runQuery c x env .operand w = .ok (x.operand, w) ∧
    runQuery c x env .value w = .ok (x.value, w) ∧
    (x.mf = true → runQuery c x env .memoryFlag w = .ok (1, w)) ∧
    (x.mf = false → runQuery c x env .memoryFlag w = .ok (0, w))

/-! ## The whole machine -/

/-- 10_state.md R44, R34, R35, R36: every step of every instance, under every admitted opcode table, keeps the
invariant. -/
def Obligations.StepKeepsInvariant : Prop :=
  ∀ s t : State, s.Inv → step s = .next t → t.Inv

/-- 10_state.md R44 over every sequence of interface operations of 00_scope.md R14, from every constructed instance: the
run always goes on, and the invariant holds. R44 gives the bounds on cursors, registers and cells; that the run goes on is
derived (41_core_primitives.md R121), and so are the other parts of `State.Inv` (R34 to R37, 00_scope.md R10; the canonical
form is the model's, log 8, and so is the load flag, log 10). -/
def Obligations.HostRunsKeepTheInvariant : Prop :=
  ∀ (p : Params) (s : State) (as : List HostAction), construct p = some s →
    ∃ t, runActions as s = .next t ∧ t.Inv

/-- 41_core_primitives.md R121, 40_engine_cycle.md R97: a step of an instance with admitted parameters is never the
model's own stop. -/
def Obligations.StepAlwaysAnswersNextState : Prop :=
  ∀ s : State, s.cfg.wf = true → ∃ t, step s = .next t

/-- 60_exceptions.md R169: a step or a load that faults changes the engine state and the fault record alone; the record
of a step names its own `PC` and the kind's code. -/
def Obligations.FaultsArePrecise : Prop :=
  (∀ s t : State, s.engine = .running → step s = .next t → t.engine = .faulted →
    ∃ kind seg index, kind ≠ .malformedProgram ∧ t = s.faulted kind (faultCode kind) seg index) ∧
  (∀ (s t : State) (image : List Byte), s.load image = some t → t.engine = .faulted →
    ∃ index, t =
      { s with
        engine := .faulted
        fault := some { kind := .malformedProgram, code := 1, pc := none, seg := none, index := index } })

/-- 42_reference_ops.md R136 read over the whole table: under RT, which opcodes may change which piece of state. -/
def Obligations.RtOpcodesThatChangeEachItem : Prop :=
  ∀ (s t : State) (i : Triple), s.cfg.optable = .rt → s.engine = .running → s.fetch = some i → step s = .next t →
    (¬ s.SameReg t .acc → i.opcode.toNat ∈ [0x02, 0x04, 0x06, 0x07, 0x0C, 0x0F]) ∧
    (¬ s.SameReg t .pr → i.opcode.toNat ∈ [0x0E]) ∧
    (¬ s.SameReg t .fr → i.opcode.toNat ∈ [0x12]) ∧
    (¬ s.SameReg t .sp → i.opcode.toNat ∈ [0x01, 0x02, 0x03, 0x11]) ∧
    (¬ s.SameReg t .asp → i.opcode.toNat ∈ [0x0A, 0x0B]) ∧
    (t.work.segs.cache ≠ s.work.segs.cache → i.opcode.toNat ∈ [0x05, 0x10]) ∧
    (t.work.segs.stack ≠ s.work.segs.stack → i.opcode.toNat ∈ [0x01, 0x03, 0x11]) ∧
    (t.work.segs.addressStack ≠ s.work.segs.addressStack → i.opcode.toNat ∈ [0x0A]) ∧
    (t.work.segs.ports ≠ s.work.segs.ports → i.opcode.toNat ∈ [0x0D]) ∧
    (t.outLog ≠ s.outLog → i.opcode.toNat ∈ [0x0D])

/-! ## Frames -/

/-- The frame of the instructions that store nothing in a segment and move no cursor: LDA, ADDA, SUBA, IN, LDI write
`ACC`; LDP writes `PR`; CMP writes `FR`; HALT, JMP, JZ, JF and an unassigned opcode write none of them. -/
def Obligations.RegisterInstructionsFrame : Prop :=
  ∀ (mf : Bool) (value : Half) (o : Byte) (s t : State),
    let kept : List Reg → Prop := fun rs =>
      (∀ r ∈ rs, s.SameReg t r) ∧ (∀ g a, s.SameCell t g a) ∧ t.outLog = s.outLog ∧ s.SameProgram t
    (∀ i ∈ [Instr.lda mf value, .adda mf value, .suba mf value, .inPort mf value, .ldi mf value],
      exec i s = .next t → kept [.pr, .fr, .sp, .asp]) ∧
    (exec (.ldp mf value) s = .next t → kept [.acc, .fr, .sp, .asp]) ∧
    (exec (.cmp mf value) s = .next t → kept [.acc, .pr, .sp, .asp]) ∧
    (∀ i ∈ [Instr.halt mf value, .jmp mf value, .jz mf value, .jf mf value, .unassigned mf value o],
      exec i s = .next t → kept [.acc, .pr, .fr, .sp, .asp])

/-- The frame of the instructions that store in `cache` or `ports`: STA at `value`, STI at `PR`, OUT at the operand. -/
def Obligations.StoringInstructionsFrame : Prop :=
  ∀ (mf : Bool) (value : Half) (s t : State),
    (exec (.sta mf value) s = .next t →
      (∀ r, r ≠ .pc → s.SameReg t r) ∧ (∀ g a, ¬ (g = .cache ∧ a = value.toNat) → s.SameCell t g a) ∧
        t.outLog = s.outLog ∧ s.SameProgram t) ∧
    (exec (.sti mf value) s = .next t →
      (∀ r, r ≠ .pc → s.SameReg t r) ∧ (∀ g a, ¬ (g = .cache ∧ a = s.work.regs.pr) → s.SameCell t g a) ∧
        t.outLog = s.outLog ∧ s.SameProgram t) ∧
    (exec (.outPort mf value) s = .next t →
      (∀ r, r ≠ .pc → s.SameReg t r) ∧
        (∀ g a, (∀ n, s.HasOperand mf value n → ¬ (g = .ports ∧ a = n)) → s.SameCell t g a) ∧
        (t.outLog = s.outLog ∨ ∃ n u, s.HasOperand mf value n ∧ Stores s.cfg s.work.regs.acc u ∧
          t.outLog = s.outLog ++ [(n, u)]) ∧ s.SameProgram t)

/-- The frame of the data-stack instructions: PUSH and PUSHA store at `SP`, ADD at `SP - 2`, POP stores nothing. -/
def Obligations.StackInstructionsFrame : Prop :=
  ∀ (mf : Bool) (value : Half) (s t : State),
    (∀ i ∈ [Instr.push mf value, .pusha mf value], exec i s = .next t →
      (∀ r ∈ [Reg.acc, .pr, .fr, .asp], s.SameReg t r) ∧
        (∀ g a, ¬ (g = .stack ∧ a = s.work.regs.sp) → s.SameCell t g a) ∧ t.outLog = s.outLog ∧ s.SameProgram t) ∧
    (exec (.add mf value) s = .next t →
      (∀ r ∈ [Reg.acc, .pr, .fr, .asp], s.SameReg t r) ∧
        (∀ g a, ¬ (g = .stack ∧ a = s.work.regs.sp - 2) → s.SameCell t g a) ∧ t.outLog = s.outLog ∧ s.SameProgram t) ∧
    (exec (.pop mf value) s = .next t →
      (∀ r ∈ [Reg.pr, .fr, .asp], s.SameReg t r) ∧ (∀ g a, s.SameCell t g a) ∧ t.outLog = s.outLog ∧ s.SameProgram t)

/-- The frame of CALL, which stores at `ASP` of the address stack, and RET, which stores nothing. -/
def Obligations.CallAndRetFrame : Prop :=
  ∀ (mf : Bool) (value : Half) (s t : State),
    (exec (.call mf value) s = .next t →
      (∀ r ∈ [Reg.acc, .pr, .fr, .sp], s.SameReg t r) ∧
        (∀ g a, ¬ (g = .addressStack ∧ a = s.work.regs.asp) → s.SameCell t g a) ∧
        t.outLog = s.outLog ∧ s.SameProgram t) ∧
    (exec (.ret mf value) s = .next t →
      (∀ r ∈ [Reg.acc, .pr, .fr, .sp], s.SameReg t r) ∧ (∀ g a, s.SameCell t g a) ∧
        t.outLog = s.outLog ∧ s.SameProgram t)

/-- 10_state.md R40, 00_scope.md R13, 41_core_primitives.md R134: no instruction of any table changes the program, the
load flag or the parameters, and the output log only grows. -/
def Obligations.StepKeepsProgramAndExtendsLog : Prop :=
  ∀ s t : State, step s = .next t → s.SameProgram t ∧ ∃ events, t.outLog = s.outLog ++ events

/-! ## The stacks and the ports -/

/-- 20_memory.md R60: pushes followed by as many pops. -/
def Obligations.StackRoundTrip : Prop :=
  ∀ (c : Params) (vs : List Nat) (w : Work), w.Inv c → w.regs.sp + vs.length ≤ c.stackSize →
    (∀ v ∈ vs, v < 2 ^ c.width) →
    ∃ w1 w2, pushAll c vs w = .ok w1 ∧ w1.regs.sp = w.regs.sp + vs.length ∧
      popAll vs.length w1 = .ok (vs.reverse, w2) ∧ w2.regs = w.regs ∧ w2.segs.cache = w.segs.cache ∧
      w2.segs.addressStack = w.segs.addressStack ∧ w2.segs.ports = w.segs.ports

/-- 20_memory.md R52: the control transfers do the same whatever the data stack and `SP` hold, and leave them alone. -/
def Obligations.DataStackNeverReachesControl : Prop :=
  ∀ (mf : Bool) (value : Half) (s : State) (m : Memory) (sp : Nat),
    ∀ i ∈ [Instr.jmp mf value, .jz mf value, .jf mf value, .call mf value, .ret mf value],
      exec i (s.withDataStack m sp) = mapNext (fun t => t.withDataStack m sp) (exec i s)

/-- 60_exceptions.md R174, 41_core_primitives.md R125: the core's next read of a port the host has written gives what
the host wrote. -/
def Obligations.InReadsWhatTheHostWrote : Prop :=
  ∀ (mf : Bool) (value : Half) (s t : State) (n v : Nat), s.Inv → s.HasOperand mf value n →
    s.hostPortWrite n v = some t → ∃ u, exec (.inPort mf value) t = .next u ∧ u.work.regs.acc = v ∧
      u.outLog = s.outLog
end

