-- ==== Sys2Proof/Laws/Memory.lean ====
section
/-! SUPPORT. The laws of one segment's cells: read after write, the canonical form, and the ranges. -/

namespace Sys2Proof.Machine

@[simp] theorem Memory.read_nil (a : Nat) : Memory.read [] a = 0 := rfl

@[simp] theorem Memory.read_cons (c : Nat × Nat) (m : List (Nat × Nat)) (a : Nat) :
    Memory.read (c :: m) a = if c.1 = a then c.2 else Memory.read m a := rfl

@[simp] theorem Memory.wf_nil : Memory.wf [] = true := rfl

theorem Memory.wf_cons {c : Nat × Nat} {m : List (Nat × Nat)} :
    Memory.wf (c :: m) = true ↔ c.2 ≠ 0 ∧ (∀ d ∈ m, c.1 < d.1) ∧ Memory.wf m = true := by
  simp [Memory.wf, and_assoc]

/-- A cell below every listed cell is not listed. -/
theorem Memory.read_eq_zero {m : Memory} {a : Nat} (h : ∀ d ∈ m, a < d.1) : Memory.read m a = 0 := by
  induction m with
  | nil => rfl
  | cons c m ih =>
    have hc : a < c.1 := h c (by simp)
    rw [Memory.read_cons, if_neg (by omega)]
    exact ih fun d hd => h d (by simp [hd])

/-- Every entry of a written memory is an old entry or the written cell, which is then not 0. -/
theorem Memory.mem_write {m : Memory} {a v : Nat} {d : Nat × Nat} (h : d ∈ Memory.write m a v) :
    d ∈ m ∨ (d = (a, v) ∧ v ≠ 0) := by
  induction m with
  | nil =>
    simp only [Memory.write] at h
    split at h
    · simp at h
    · exact .inr ⟨by simpa using h, ‹_›⟩
  | cons c m ih =>
    simp only [Memory.write] at h
    split at h
    · split at h
      · exact .inl h
      · rcases List.mem_cons.1 h with rfl | h
        · exact .inr ⟨rfl, ‹_›⟩
        · exact .inl h
    · split at h
      · split at h
        · exact .inl (by simp [h])
        · rcases List.mem_cons.1 h with rfl | h
          · exact .inr ⟨rfl, ‹_›⟩
          · exact .inl (by simp [h])
      · rcases List.mem_cons.1 h with rfl | h
        · exact .inl (by simp)
        · rcases ih h with h | h
          · exact .inl (by simp [h])
          · exact .inr h

/-- A write leaves every other cell alone. -/
theorem Memory.read_write_of_ne {m : Memory} {a b v : Nat} (h : b ≠ a) :
    Memory.read (Memory.write m a v) b = Memory.read m b := by
  induction m with
  | nil => simp only [Memory.write]; split <;> simp [Ne.symm h]
  | cons c m ih =>
    simp only [Memory.write]
    split
    · split <;> simp [Ne.symm h]
    · split
      · next hac => subst hac; split <;> simp [Ne.symm h]
      · simp [ih]

/-- A read of the written cell gives the value written. -/
theorem Memory.read_write_self {m : Memory} {a v : Nat} (hm : Memory.wf m = true) :
    Memory.read (Memory.write m a v) a = v := by
  induction m with
  | nil => simp only [Memory.write]; split <;> simp_all
  | cons c m ih =>
    obtain ⟨_, hlt, hwf⟩ := Memory.wf_cons.1 hm
    simp only [Memory.write]
    split
    · next hac =>
      split
      · next hv =>
        rw [Memory.read_cons, if_neg (by omega), Memory.read_eq_zero fun d hd => Nat.lt_trans hac (hlt d hd), hv]
      · simp
    · split
      · next hac =>
        split
        · next hv => rw [Memory.read_eq_zero fun d hd => hac ▸ hlt d hd, hv]
        · simp
      · next hne => rw [Memory.read_cons, if_neg (Ne.symm hne), ih hwf]

/-- A write keeps the canonical form. -/
theorem Memory.wf_write {m : Memory} {a v : Nat} (hm : Memory.wf m = true) :
    Memory.wf (Memory.write m a v) = true := by
  induction m with
  | nil => simp only [Memory.write]; split <;> simp_all [Memory.wf]
  | cons c m ih =>
    obtain ⟨hc, hlt, hwf⟩ := Memory.wf_cons.1 hm
    simp only [Memory.write]
    split
    · next hac =>
      split
      · exact hm
      · refine Memory.wf_cons.2 ⟨‹_›, fun d hd => ?_, hm⟩
        rcases List.mem_cons.1 hd with rfl | hd
        · exact hac
        · exact Nat.lt_trans hac (hlt d hd)
    · split
      · next hac =>
        split
        · exact hwf
        · exact Memory.wf_cons.2 ⟨‹_›, hac ▸ hlt, hwf⟩
      · refine Memory.wf_cons.2 ⟨hc, fun d hd => ?_, ih hwf⟩
        rcases Memory.mem_write hd with hd | ⟨rfl, _⟩
        · exact hlt d hd
        · show c.1 < a
          omega

theorem Memory.within_iff {m : Memory} {size W : Nat} :
    Memory.within m size W = true ↔ ∀ d ∈ m, d.1 < size ∧ d.2 < 2 ^ W := by
  simp [Memory.within]

/-- A write in range keeps every cell in range. -/
theorem Memory.within_write {m : Memory} {size W a v : Nat} (hm : Memory.within m size W = true) (ha : a < size)
    (hv : v < 2 ^ W) : Memory.within (Memory.write m a v) size W = true := by
  refine Memory.within_iff.2 fun d hd => ?_
  rcases Memory.mem_write hd with hd | ⟨rfl, _⟩
  · exact Memory.within_iff.1 hm d hd
  · exact ⟨ha, hv⟩

theorem Memory.Sound.write {m : Memory} {size W a v : Nat} (hm : Memory.Sound m size W) (ha : a < size)
    (hv : v < 2 ^ W) : Memory.Sound (Memory.write m a v) size W :=
  ⟨Memory.wf_write hm.1, Memory.within_write hm.2 ha hv⟩

/-- Every cell of a segment in range fits the width. -/
theorem Memory.read_lt {m : Memory} {size W : Nat} (hm : Memory.within m size W = true) (a : Nat) :
    Memory.read m a < 2 ^ W := by
  induction m with
  | nil => simp
  | cons c m ih =>
    have h := Memory.within_iff.1 hm
    rw [Memory.read_cons]
    split
    · exact (h c (by simp)).2
    · exact ih (Memory.within_iff.2 fun d hd => h d (by simp [hd]))

/-- The segments of `State.reset` are in canonical form. -/
theorem Memory.reset_wf (g : Segment) : Memory.wf (State.reset.work.segs.get g) = true := by cases g <;> rfl

/-- What a write to one segment makes of each. -/
theorem Segments.get_write (s : Segments) (k g : Segment) (a v : Nat) :
    (s.write k a v).get g = if g = k then Memory.write (s.get g) a v else s.get g := by
  cases k <;> cases g <;> rfl

/-- A write to one segment keeps the canonical form of each. -/
theorem Segments.wf_write {s : Segments} (h : ∀ g, Memory.wf (s.get g) = true) (k : Segment) (a v : Nat) (g : Segment) :
    Memory.wf ((s.write k a v).get g) = true := by
  rw [Segments.get_write]
  split
  · exact Memory.wf_write (h g)
  · exact h g

/-- A write to one segment leaves every cell of another alone (20_memory.md R48). -/
theorem Segments.read_write_of_ne {s : Segments} {g k : Segment} (h : g ≠ k) (a v b : Nat) :
    (s.write k a v).read g b = s.read g b := by
  cases k <;> cases g <;> first | rfl | exact absurd rfl h

end Sys2Proof.Machine
end

