-- ==== Sys2Proof/Laws/State.lean ====
section
/-! SUPPORT. One lemma per field per update of the state, each true by rfl, so that no proof unfolds a record update. -/

namespace Sys2Proof.Machine

/-! ## The register file -/

@[simp] theorem RegFile.get_acc (f : RegFile) :
    f.get .acc = f.acc := rfl

@[simp] theorem RegFile.get_pr (f : RegFile) :
    f.get .pr = f.pr := rfl

@[simp] theorem RegFile.get_pc (f : RegFile) :
    f.get .pc = f.pc := rfl

@[simp] theorem RegFile.get_fr (f : RegFile) :
    f.get .fr = f.fr := rfl

@[simp] theorem RegFile.get_sp (f : RegFile) :
    f.get .sp = f.sp := rfl

@[simp] theorem RegFile.get_asp (f : RegFile) :
    f.get .asp = f.asp := rfl

@[simp] theorem RegFile.set_acc (f : RegFile) (v : Nat) :
    f.set .acc v = { f with acc := v } := rfl

@[simp] theorem RegFile.set_pr (f : RegFile) (v : Nat) :
    f.set .pr v = { f with pr := v } := rfl

@[simp] theorem RegFile.set_pc (f : RegFile) (v : Nat) :
    f.set .pc v = { f with pc := v } := rfl

@[simp] theorem RegFile.set_fr (f : RegFile) (v : Nat) :
    f.set .fr v = { f with fr := v } := rfl

@[simp] theorem RegFile.set_sp (f : RegFile) (v : Nat) :
    f.set .sp v = { f with sp := v } := rfl

@[simp] theorem RegFile.set_asp (f : RegFile) (v : Nat) :
    f.set .asp v = { f with asp := v } := rfl

/-! ## The segments -/

@[simp] theorem Segments.get_cache (s : Segments) :
    s.get .cache = s.cache := rfl

@[simp] theorem Segments.read_cache (s : Segments) (a : Nat) :
    s.read .cache a = Memory.read s.cache a := rfl

@[simp] theorem Segments.get_stack (s : Segments) :
    s.get .stack = s.stack := rfl

@[simp] theorem Segments.read_stack (s : Segments) (a : Nat) :
    s.read .stack a = Memory.read s.stack a := rfl

@[simp] theorem Segments.get_addressStack (s : Segments) :
    s.get .addressStack = s.addressStack := rfl

@[simp] theorem Segments.read_addressStack (s : Segments) (a : Nat) :
    s.read .addressStack a = Memory.read s.addressStack a := rfl

@[simp] theorem Segments.get_ports (s : Segments) :
    s.get .ports = s.ports := rfl

@[simp] theorem Segments.read_ports (s : Segments) (a : Nat) :
    s.read .ports a = Memory.read s.ports a := rfl

@[simp] theorem Segments.write_cache_cache (s : Segments) (a v : Nat) :
    (s.write .cache a v).cache = Memory.write s.cache a v := rfl

@[simp] theorem Segments.write_cache_stack (s : Segments) (a v : Nat) :
    (s.write .cache a v).stack = s.stack := rfl

@[simp] theorem Segments.write_cache_addressStack (s : Segments) (a v : Nat) :
    (s.write .cache a v).addressStack = s.addressStack := rfl

@[simp] theorem Segments.write_cache_ports (s : Segments) (a v : Nat) :
    (s.write .cache a v).ports = s.ports := rfl

@[simp] theorem Segments.write_stack_cache (s : Segments) (a v : Nat) :
    (s.write .stack a v).cache = s.cache := rfl

@[simp] theorem Segments.write_stack_stack (s : Segments) (a v : Nat) :
    (s.write .stack a v).stack = Memory.write s.stack a v := rfl

@[simp] theorem Segments.write_stack_addressStack (s : Segments) (a v : Nat) :
    (s.write .stack a v).addressStack = s.addressStack := rfl

@[simp] theorem Segments.write_stack_ports (s : Segments) (a v : Nat) :
    (s.write .stack a v).ports = s.ports := rfl

@[simp] theorem Segments.write_addressStack_cache (s : Segments) (a v : Nat) :
    (s.write .addressStack a v).cache = s.cache := rfl

@[simp] theorem Segments.write_addressStack_stack (s : Segments) (a v : Nat) :
    (s.write .addressStack a v).stack = s.stack := rfl

@[simp] theorem Segments.write_addressStack_addressStack (s : Segments) (a v : Nat) :
    (s.write .addressStack a v).addressStack = Memory.write s.addressStack a v := rfl

@[simp] theorem Segments.write_addressStack_ports (s : Segments) (a v : Nat) :
    (s.write .addressStack a v).ports = s.ports := rfl

@[simp] theorem Segments.write_ports_cache (s : Segments) (a v : Nat) :
    (s.write .ports a v).cache = s.cache := rfl

@[simp] theorem Segments.write_ports_stack (s : Segments) (a v : Nat) :
    (s.write .ports a v).stack = s.stack := rfl

@[simp] theorem Segments.write_ports_addressStack (s : Segments) (a v : Nat) :
    (s.write .ports a v).addressStack = s.addressStack := rfl

@[simp] theorem Segments.write_ports_ports (s : Segments) (a v : Nat) :
    (s.write .ports a v).ports = Memory.write s.ports a v := rfl

@[simp] theorem segmentSize_cache (c : Params) :
    segmentSize c .cache = c.cacheSize := rfl

@[simp] theorem segmentSize_stack (c : Params) :
    segmentSize c .stack = c.stackSize := rfl

@[simp] theorem segmentSize_addressStack (c : Params) :
    segmentSize c .addressStack = c.astackSize := rfl

@[simp] theorem segmentSize_ports (c : Params) :
    segmentSize c .ports = c.portsSize := rfl

/-! ## The working copy, fault entry and the ends of a step -/

@[simp] theorem State.workingCopy_regs (s : State) :
    s.workingCopy.regs = s.work.regs := rfl

@[simp] theorem State.workingCopy_segs (s : State) :
    s.workingCopy.segs = s.work.segs := rfl

@[simp] theorem State.workingCopy_pcWritten (s : State) :
    s.workingCopy.pcWritten = false := rfl

@[simp] theorem State.workingCopy_haltRequest (s : State) :
    s.workingCopy.haltRequest = false := rfl

@[simp] theorem State.workingCopy_out (s : State) :
    s.workingCopy.out = [] := rfl

@[simp] theorem State.enterFault_cfg (s : State) (p : Option Nat) (f : FaultInfo) :
    (s.enterFault p f).cfg = s.cfg := rfl

@[simp] theorem State.enterFault_prog (s : State) (p : Option Nat) (f : FaultInfo) :
    (s.enterFault p f).prog = s.prog := rfl

@[simp] theorem State.enterFault_loaded (s : State) (p : Option Nat) (f : FaultInfo) :
    (s.enterFault p f).loaded = s.loaded := rfl

@[simp] theorem State.enterFault_outLog (s : State) (p : Option Nat) (f : FaultInfo) :
    (s.enterFault p f).outLog = s.outLog := rfl

@[simp] theorem State.enterFault_work (s : State) (p : Option Nat) (f : FaultInfo) :
    (s.enterFault p f).work = s.work := rfl

@[simp] theorem State.enterFault_engine (s : State) (p : Option Nat) (f : FaultInfo) :
    (s.enterFault p f).engine = .faulted := rfl

@[simp] theorem State.enterFault_fault (s : State) (p : Option Nat) (f : FaultInfo) :
    (s.enterFault p f).fault = some { kind := f.kind, code := faultCode f.kind, pc := p, seg := f.seg, index := f.index } := rfl

@[simp] theorem State.faulted_cfg (s : State) (k : FaultKind) (n : Nat) (g : Option Place) (i : Nat) :
    (s.faulted k n g i).cfg = s.cfg := rfl

@[simp] theorem State.faulted_prog (s : State) (k : FaultKind) (n : Nat) (g : Option Place) (i : Nat) :
    (s.faulted k n g i).prog = s.prog := rfl

@[simp] theorem State.faulted_loaded (s : State) (k : FaultKind) (n : Nat) (g : Option Place) (i : Nat) :
    (s.faulted k n g i).loaded = s.loaded := rfl

@[simp] theorem State.faulted_outLog (s : State) (k : FaultKind) (n : Nat) (g : Option Place) (i : Nat) :
    (s.faulted k n g i).outLog = s.outLog := rfl

@[simp] theorem State.faulted_work (s : State) (k : FaultKind) (n : Nat) (g : Option Place) (i : Nat) :
    (s.faulted k n g i).work = s.work := rfl

@[simp] theorem State.faulted_engine (s : State) (k : FaultKind) (n : Nat) (g : Option Place) (i : Nat) :
    (s.faulted k n g i).engine = .faulted := rfl

@[simp] theorem State.faulted_fault (s : State) (k : FaultKind) (n : Nat) (g : Option Place) (i : Nat) :
    (s.faulted k n g i).fault = some { kind := k, code := n, pc := some s.work.regs.pc, seg := g, index := i } := rfl

@[simp] theorem State.advanced_cfg (s : State) (r : RegFile) (g : Segments) (es : List PortEvent) :
    (s.advanced r g es).cfg = s.cfg := rfl

@[simp] theorem State.advanced_prog (s : State) (r : RegFile) (g : Segments) (es : List PortEvent) :
    (s.advanced r g es).prog = s.prog := rfl

@[simp] theorem State.advanced_loaded (s : State) (r : RegFile) (g : Segments) (es : List PortEvent) :
    (s.advanced r g es).loaded = s.loaded := rfl

@[simp] theorem State.advanced_fault (s : State) (r : RegFile) (g : Segments) (es : List PortEvent) :
    (s.advanced r g es).fault = s.fault := rfl

@[simp] theorem State.advanced_engine (s : State) (r : RegFile) (g : Segments) (es : List PortEvent) :
    (s.advanced r g es).engine = if r.pc + 1 < s.prog.length then s.engine else .halted := rfl

@[simp] theorem State.advanced_outLog (s : State) (r : RegFile) (g : Segments) (es : List PortEvent) :
    (s.advanced r g es).outLog = s.outLog ++ es := rfl

@[simp] theorem State.advanced_segs (s : State) (r : RegFile) (g : Segments) (es : List PortEvent) :
    (s.advanced r g es).work.segs = g := rfl

@[simp] theorem State.advanced_acc (s : State) (r : RegFile) (g : Segments) (es : List PortEvent) :
    (s.advanced r g es).work.regs.acc = r.acc := rfl

@[simp] theorem State.advanced_pr (s : State) (r : RegFile) (g : Segments) (es : List PortEvent) :
    (s.advanced r g es).work.regs.pr = r.pr := rfl

@[simp] theorem State.advanced_pc (s : State) (r : RegFile) (g : Segments) (es : List PortEvent) :
    (s.advanced r g es).work.regs.pc = if r.pc + 1 < s.prog.length then r.pc + 1 else r.pc := rfl

@[simp] theorem State.advanced_fr (s : State) (r : RegFile) (g : Segments) (es : List PortEvent) :
    (s.advanced r g es).work.regs.fr = r.fr := rfl

@[simp] theorem State.advanced_sp (s : State) (r : RegFile) (g : Segments) (es : List PortEvent) :
    (s.advanced r g es).work.regs.sp = r.sp := rfl

@[simp] theorem State.advanced_asp (s : State) (r : RegFile) (g : Segments) (es : List PortEvent) :
    (s.advanced r g es).work.regs.asp = r.asp := rfl

@[simp] theorem State.advanced_pcWritten (s : State) (r : RegFile) (g : Segments) (es : List PortEvent) :
    (s.advanced r g es).work.pcWritten = false := rfl

@[simp] theorem State.advanced_haltRequest (s : State) (r : RegFile) (g : Segments) (es : List PortEvent) :
    (s.advanced r g es).work.haltRequest = false := rfl

@[simp] theorem State.advanced_out (s : State) (r : RegFile) (g : Segments) (es : List PortEvent) :
    (s.advanced r g es).work.out = [] := rfl

@[simp] theorem State.jumped_cfg (s : State) (r : RegFile) (g : Segments) :
    (s.jumped r g).cfg = s.cfg := rfl

@[simp] theorem State.jumped_prog (s : State) (r : RegFile) (g : Segments) :
    (s.jumped r g).prog = s.prog := rfl

@[simp] theorem State.jumped_loaded (s : State) (r : RegFile) (g : Segments) :
    (s.jumped r g).loaded = s.loaded := rfl

@[simp] theorem State.jumped_fault (s : State) (r : RegFile) (g : Segments) :
    (s.jumped r g).fault = s.fault := rfl

@[simp] theorem State.jumped_engine (s : State) (r : RegFile) (g : Segments) :
    (s.jumped r g).engine = s.engine := rfl

@[simp] theorem State.jumped_outLog (s : State) (r : RegFile) (g : Segments) :
    (s.jumped r g).outLog = s.outLog := rfl

@[simp] theorem State.jumped_regs (s : State) (r : RegFile) (g : Segments) :
    (s.jumped r g).work.regs = r := rfl

@[simp] theorem State.jumped_segs (s : State) (r : RegFile) (g : Segments) :
    (s.jumped r g).work.segs = g := rfl

@[simp] theorem State.jumped_pcWritten (s : State) (r : RegFile) (g : Segments) :
    (s.jumped r g).work.pcWritten = false := rfl

@[simp] theorem State.jumped_haltRequest (s : State) (r : RegFile) (g : Segments) :
    (s.jumped r g).work.haltRequest = false := rfl

@[simp] theorem State.jumped_out (s : State) (r : RegFile) (g : Segments) :
    (s.jumped r g).work.out = [] := rfl

@[simp] theorem State.halted_cfg (s : State) (r : RegFile) (g : Segments) :
    (s.halted r g).cfg = s.cfg := rfl

@[simp] theorem State.halted_prog (s : State) (r : RegFile) (g : Segments) :
    (s.halted r g).prog = s.prog := rfl

@[simp] theorem State.halted_loaded (s : State) (r : RegFile) (g : Segments) :
    (s.halted r g).loaded = s.loaded := rfl

@[simp] theorem State.halted_fault (s : State) (r : RegFile) (g : Segments) :
    (s.halted r g).fault = s.fault := rfl

@[simp] theorem State.halted_outLog (s : State) (r : RegFile) (g : Segments) :
    (s.halted r g).outLog = s.outLog := rfl

@[simp] theorem State.halted_engine (s : State) (r : RegFile) (g : Segments) :
    (s.halted r g).engine = .halted := rfl

@[simp] theorem State.halted_regs (s : State) (r : RegFile) (g : Segments) :
    (s.halted r g).work.regs = r := rfl

@[simp] theorem State.halted_segs (s : State) (r : RegFile) (g : Segments) :
    (s.halted r g).work.segs = g := rfl

@[simp] theorem State.halted_pcWritten (s : State) (r : RegFile) (g : Segments) :
    (s.halted r g).work.pcWritten = false := rfl

@[simp] theorem State.halted_haltRequest (s : State) (r : RegFile) (g : Segments) :
    (s.halted r g).work.haltRequest = false := rfl

@[simp] theorem State.halted_out (s : State) (r : RegFile) (g : Segments) :
    (s.halted r g).work.out = [] := rfl

end Sys2Proof.Machine
end

