-- ==== Sys2Proof/Laws/Ops.lean ====
section
/-! SUPPORT. One lemma per shared operation that says everything it can do: the width rule, each primitive, fetch and
operand resolution. -/

namespace Sys2Proof.Machine

variable {c : Params} {w w' : Work} {s : State} {v : Int} {u a p n : Nat}

/-- The bounds checker (20_memory.md R53). -/
@[simp] theorem inBounds_iff {g : Segment} {i : Nat} : inBounds c g i = true ↔ i < segmentSize c g := by
  simp [inBounds]

/-! ## The width rule -/

theorem stores_or_tooWide (c : Params) (v : Int) : (∃ u, Stores c v u) ∨ TooWide c v := by
  have hpos : (0 : Int) < 2 ^ c.width := by positivity
  by_cases h : 0 ≤ v ∧ v < 2 ^ c.width
  · exact .inl ⟨v.toNat, .inl ⟨h.1, h.2, Int.toNat_of_nonneg h.1⟩⟩
  · have h' : v < 0 ∨ 2 ^ c.width ≤ v := by omega
    cases hp : c.policy with
    | fault => exact .inr ⟨hp, h'⟩
    | truncate =>
      exact .inl ⟨(v % 2 ^ c.width).toNat, .inr ⟨hp, h', Int.toNat_of_nonneg (Int.emod_nonneg _ (by omega))⟩⟩

/-- `fit` answers a value exactly where the value is stored (41_core_primitives.md R117). -/
theorem fit_eq_ok {t : Place} {i : Nat} : fit c v t i = .ok u ↔ Stores c v u := by
  have hpos : (0 : Int) < 2 ^ c.width := by positivity
  have hmod : 0 ≤ v % 2 ^ c.width := Int.emod_nonneg _ (by omega)
  simp only [fit, Nat.cast_pow, Nat.cast_ofNat]
  split
  · next h =>
    constructor
    · intro e
      simp only [Except.ok.injEq] at e
      exact .inl ⟨h.1, h.2, by omega⟩
    · rintro (⟨_, _, e⟩ | ⟨_, h', _⟩)
      · simp only [Except.ok.injEq]; omega
      · omega
  · next h =>
    cases hp : c.policy with
    | fault => simp [Stores, hp]; omega
    | truncate =>
      constructor
      · intro e
        simp only [Except.ok.injEq] at e
        exact .inr ⟨hp, by omega, by omega⟩
      · rintro (⟨_, _, _⟩ | ⟨_, _, e⟩)
        · omega
        · simp only [Except.ok.injEq]; omega

/-- `fit` faults exactly where the value is too wide under the policy `fault`. -/
theorem fit_eq_error {t : Place} {i : Nat} {e : Abort} :
    fit c v t i = .error e ↔
      TooWide c v ∧ e = .raise { kind := .cellWidthExceeded, seg := some t, index := i } := by
  simp only [fit, Nat.cast_pow, Nat.cast_ofNat]
  split
  · next h => simp [TooWide]; omega
  · next h =>
    cases hp : c.policy with
    | fault =>
      simp only [Except.error.injEq, TooWide, hp, true_and]
      constructor
      · rintro rfl; exact ⟨by omega, rfl⟩
      · rintro ⟨_, rfl⟩; rfl
    | truncate => simp [TooWide, hp]

theorem fit_of_stores {t : Place} {i : Nat} (h : Stores c v u) : fit c v t i = .ok u := fit_eq_ok.2 h

theorem fit_of_tooWide {t : Place} {i : Nat} (h : TooWide c v) :
    fit c v t i = .error (.raise { kind := .cellWidthExceeded, seg := some t, index := i }) :=
  fit_eq_error.2 ⟨h, rfl⟩

/-- What is stored fits the width. -/
theorem lt_of_stores (h : Stores c v u) : u < 2 ^ c.width := by
  have hpos : (0 : Int) < 2 ^ c.width := by positivity
  have key : (u : Int) < 2 ^ c.width := by
    rcases h with ⟨_, h, e⟩ | ⟨_, _, e⟩
    · omega
    · rw [e]; exact Int.emod_lt_of_pos _ hpos
  exact_mod_cast key

/-- A natural that fits is stored as itself. -/
theorem stores_self (h : u < 2 ^ c.width) : Stores c (u : Int) u := .inl ⟨by omega, by exact_mod_cast h, rfl⟩

/-- At most one value is stored. -/
theorem stores_iff (h : Stores c v u) (x : Nat) : Stores c v x ↔ x = u := by
  rw [← fit_eq_ok (t := .register .acc) (i := 0), fit_of_stores h]
  simp [eq_comm]

/-- A value that is too wide is not stored. -/
theorem not_stores_of_tooWide (h : TooWide c v) (x : Nat) : ¬ Stores c v x := by
  rw [← fit_eq_ok (t := .register .acc) (i := 0), fit_of_tooWide h]
  simp

theorem not_tooWide_of_stores (h : Stores c v u) : ¬ TooWide c v := fun h' => not_stores_of_tooWide h' u h

/-! ## Register and control primitives -/

theorem storeReg_eq_ok {r : Reg} : storeReg c r v w = .ok w' ↔
    ∃ u, Stores c v u ∧ w' = { w with regs := w.regs.set r u } := by
  unfold storeReg
  rcases stores_or_tooWide c v with ⟨u, hu⟩ | ht
  · simp [fit_of_stores hu, stores_iff hu, eq_comm]
  · simp [fit_of_tooWide ht, not_stores_of_tooWide ht]

theorem storeReg_eq_error {r : Reg} {e : Abort} : storeReg c r v w = .error e ↔
    TooWide c v ∧ e = .raise { kind := .cellWidthExceeded, seg := some (.register r), index := regNumber r } := by
  unfold storeReg
  rcases stores_or_tooWide c v with ⟨u, hu⟩ | ht
  · simp only [fit_of_stores hu, reduceCtorEq, not_tooWide_of_stores hu, false_and]
  · simp only [fit_of_tooWide ht, eq_true ht, Except.error.injEq, true_and, eq_comm]

theorem setPc_eq_ok : setPc c v w = .ok w' ↔
    ∃ u, Stores c v u ∧ w' = { w with regs := { w.regs with pc := u }, pcWritten := true } := by
  unfold setPc storeReg
  rcases stores_or_tooWide c v with ⟨u, hu⟩ | ht
  · simp [fit_of_stores hu, stores_iff hu, eq_comm]
  · simp [fit_of_tooWide ht, not_stores_of_tooWide ht]

theorem setPc_eq_error {e : Abort} : setPc c v w = .error e ↔
    TooWide c v ∧ e = .raise { kind := .cellWidthExceeded, seg := some (.register .pc), index := 2 } := by
  unfold setPc storeReg
  rcases stores_or_tooWide c v with ⟨u, hu⟩ | ht
  · simp only [fit_of_stores hu, reduceCtorEq, not_tooWide_of_stores hu, false_and]
  · simp only [fit_of_tooWide ht, eq_true ht, Except.error.injEq, true_and, eq_comm, regNumber]

/-! ## Cache and port primitives -/

theorem cacheRead_eq_ok : cacheRead c a w = .ok n ↔ a < c.cacheSize ∧ n = Memory.read w.segs.cache a := by
  unfold cacheRead inBounds
  by_cases h : a < c.cacheSize <;> simp [h, eq_comm]

theorem cacheRead_eq_error {e : Abort} : cacheRead c a w = .error e ↔
    c.cacheSize ≤ a ∧ e = .raise (outOfRange .cache a) := by
  unfold cacheRead inBounds
  by_cases h : a < c.cacheSize <;> simp [h, eq_comm, Nat.le_of_not_lt]

theorem portRead_eq_ok : portRead c p w = .ok n ↔ p < c.portsSize ∧ n = Memory.read w.segs.ports p := by
  unfold portRead inBounds
  by_cases h : p < c.portsSize <;> simp [h, eq_comm]

theorem portRead_eq_error {e : Abort} : portRead c p w = .error e ↔
    c.portsSize ≤ p ∧ e = .raise (outOfRange .ports p) := by
  unfold portRead inBounds
  by_cases h : p < c.portsSize <;> simp [h, eq_comm, Nat.le_of_not_lt]

theorem cacheWrite_eq_ok : cacheWrite c a v w = .ok w' ↔
    a < c.cacheSize ∧ ∃ u, Stores c v u ∧ w' = { w with segs := w.segs.write .cache a u } := by
  unfold cacheWrite inBounds
  by_cases h : a < c.cacheSize
  · rcases stores_or_tooWide c v with ⟨u, hu⟩ | ht
    · simp [h, fit_of_stores hu, stores_iff hu, eq_comm]
    · simp [h, fit_of_tooWide ht, not_stores_of_tooWide ht]
  · simp [h]

theorem cacheWrite_eq_error {e : Abort} : cacheWrite c a v w = .error e ↔
    (c.cacheSize ≤ a ∧ e = .raise (outOfRange .cache a)) ∨
      (a < c.cacheSize ∧ TooWide c v ∧
        e = .raise { kind := .cellWidthExceeded, seg := some (.segment .cache), index := a }) := by
  unfold cacheWrite inBounds
  by_cases h : a < c.cacheSize
  · rcases stores_or_tooWide c v with ⟨u, hu⟩ | ht
    · simp [h, Nat.not_le.2 h, fit_of_stores hu, not_tooWide_of_stores hu, -not_and]
    · simp [h, Nat.not_le.2 h, fit_of_tooWide ht, eq_true ht, -not_and, eq_comm]
  · simp [h, eq_comm, Nat.le_of_not_lt]

theorem portWrite_eq_ok : portWrite c p v w = .ok w' ↔
    p < c.portsSize ∧ ∃ u, Stores c v u ∧ w' = { w with segs := w.segs.write .ports p u, out := w.out ++ [(p, u)] } := by
  unfold portWrite inBounds
  by_cases h : p < c.portsSize
  · rcases stores_or_tooWide c v with ⟨u, hu⟩ | ht
    · simp [h, fit_of_stores hu, stores_iff hu, eq_comm]
    · simp [h, fit_of_tooWide ht, not_stores_of_tooWide ht]
  · simp [h]

theorem portWrite_eq_error {e : Abort} : portWrite c p v w = .error e ↔
    (c.portsSize ≤ p ∧ e = .raise (outOfRange .ports p)) ∨
      (p < c.portsSize ∧ TooWide c v ∧
        e = .raise { kind := .cellWidthExceeded, seg := some (.segment .ports), index := p }) := by
  unfold portWrite inBounds
  by_cases h : p < c.portsSize
  · rcases stores_or_tooWide c v with ⟨u, hu⟩ | ht
    · simp [h, Nat.not_le.2 h, fit_of_stores hu, not_tooWide_of_stores hu, -not_and]
    · simp [h, Nat.not_le.2 h, fit_of_tooWide ht, eq_true ht, -not_and, eq_comm]
  · simp [h, eq_comm, Nat.le_of_not_lt]

/-! ## Stack primitives -/

theorem push_eq_ok : push c v w = .ok w' ↔
    w.regs.sp < c.stackSize ∧ ∃ u, Stores c v u ∧
      w' = { w with
        segs := w.segs.write .stack w.regs.sp u, regs := { w.regs with sp := w.regs.sp + 1 } } := by
  unfold push
  by_cases h : w.regs.sp < c.stackSize
  · rcases stores_or_tooWide c v with ⟨u, hu⟩ | ht
    · simp [h, Nat.not_le.2 h, fit_of_stores hu, stores_iff hu, eq_comm]
    · simp [h, Nat.not_le.2 h, fit_of_tooWide ht, not_stores_of_tooWide ht]
  · simp [h, Nat.le_of_not_lt h]

theorem push_eq_error {e : Abort} : push c v w = .error e ↔
    (c.stackSize ≤ w.regs.sp ∧
      e = .raise { kind := .stackOverflow, seg := some (.segment .stack), index := w.regs.sp }) ∨
    (w.regs.sp < c.stackSize ∧ TooWide c v ∧
      e = .raise { kind := .cellWidthExceeded, seg := some (.segment .stack), index := w.regs.sp }) := by
  unfold push
  by_cases h : w.regs.sp < c.stackSize
  · rcases stores_or_tooWide c v with ⟨u, hu⟩ | ht
    · simp [h, Nat.not_le.2 h, fit_of_stores hu, not_tooWide_of_stores hu, -not_and]
    · simp [h, Nat.not_le.2 h, fit_of_tooWide ht, eq_true ht, -not_and, eq_comm]
  · simp [h, Nat.le_of_not_lt h, eq_comm]

theorem apush_eq_ok : apush c v w = .ok w' ↔
    w.regs.asp < c.astackSize ∧ ∃ u, Stores c v u ∧
      w' = { w with
        segs := w.segs.write .addressStack w.regs.asp u, regs := { w.regs with asp := w.regs.asp + 1 } } := by
  unfold apush
  by_cases h : w.regs.asp < c.astackSize
  · rcases stores_or_tooWide c v with ⟨u, hu⟩ | ht
    · simp [h, Nat.not_le.2 h, fit_of_stores hu, stores_iff hu, eq_comm]
    · simp [h, Nat.not_le.2 h, fit_of_tooWide ht, not_stores_of_tooWide ht]
  · simp [h, Nat.le_of_not_lt h]

theorem apush_eq_error {e : Abort} : apush c v w = .error e ↔
    (c.astackSize ≤ w.regs.asp ∧
      e = .raise { kind := .addressStackOverflow, seg := some (.segment .addressStack), index := w.regs.asp }) ∨
    (w.regs.asp < c.astackSize ∧ TooWide c v ∧
      e = .raise { kind := .cellWidthExceeded, seg := some (.segment .addressStack), index := w.regs.asp }) := by
  unfold apush
  by_cases h : w.regs.asp < c.astackSize
  · rcases stores_or_tooWide c v with ⟨u, hu⟩ | ht
    · simp [h, Nat.not_le.2 h, fit_of_stores hu, not_tooWide_of_stores hu, -not_and]
    · simp [h, Nat.not_le.2 h, fit_of_tooWide ht, eq_true ht, -not_and, eq_comm]
  · simp [h, Nat.le_of_not_lt h, eq_comm]

theorem pop_eq_ok {q : Nat × Work} : pop w = .ok q ↔
    w.regs.sp ≠ 0 ∧
      q = (Memory.read w.segs.stack (w.regs.sp - 1), { w with regs := { w.regs with sp := w.regs.sp - 1 } }) := by
  unfold pop
  by_cases h : w.regs.sp = 0 <;> simp [h, eq_comm]

theorem pop_eq_error {e : Abort} : pop w = .error e ↔
    w.regs.sp = 0 ∧ e = .raise { kind := .stackUnderflow, seg := some (.segment .stack), index := 0 } := by
  unfold pop
  by_cases h : w.regs.sp = 0 <;> simp [h, eq_comm]

theorem apop_eq_ok {q : Nat × Work} : apop w = .ok q ↔
    w.regs.asp ≠ 0 ∧
      q = (Memory.read w.segs.addressStack (w.regs.asp - 1), { w with regs := { w.regs with asp := w.regs.asp - 1 } }) := by
  unfold apop
  by_cases h : w.regs.asp = 0 <;> simp [h, eq_comm]

theorem apop_eq_error {e : Abort} : apop w = .error e ↔
    w.regs.asp = 0 ∧ e = .raise { kind := .addressStackUnderflow, seg := some (.segment .addressStack), index := 0 } := by
  unfold apop
  by_cases h : w.regs.asp = 0 <;> simp [h, eq_comm]

/-! ## Fetch and operand resolution -/

theorem resolve_eq_ok {mf : Bool} {value : Half} : s.resolve mf value = .ok n ↔ s.HasOperand mf value n := by
  unfold State.resolve inBounds State.HasOperand
  cases mf
  · simp [eq_comm]
  · by_cases h : value.toNat < s.cfg.cacheSize <;> simp [h, eq_comm]

theorem resolve_eq_error {mf : Bool} {value : Half} {f : FaultInfo} : s.resolve mf value = .error f ↔
    s.OperandOutOfRange mf value ∧ f = outOfRange .cache value.toNat := by
  unfold State.resolve inBounds State.OperandOutOfRange
  cases mf
  · simp
  · by_cases h : value.toNat < s.cfg.cacheSize <;> simp [h, eq_comm, Nat.le_of_not_lt]

theorem fetch_eq_none : s.fetch = none ↔ s.prog.length ≤ s.work.regs.pc := by simp [State.fetch]

end Sys2Proof.Machine
end

