-- ==== Sys2Proof/Laws/Engine.lean ====
section
/-! SUPPORT. What one instruction can do: the inversion of `runOperation` and `execute`, the cases of `commit`, and one
induction for every property the primitives keep. -/

namespace Sys2Proof.Machine

variable {c : Params} {x : OpContext} {env : List Nat} {w w' : Work} {s t : State}

/-! ## Running an operation -/

@[simp] theorem runOperation_done : runOperation c x .done env w = .ok w := rfl

theorem runOperation_get {q : Query} {k : Operation} {p : Nat × Work} (h : runQuery c x env q w = .ok p) :
    runOperation c x (.get q k) env w = runOperation c x k (env ++ [p.1]) p.2 := by
  simp [runOperation, h]

theorem runOperation_get_error {q : Query} {k : Operation} {e : Abort} (h : runQuery c x env q w = .error e) :
    runOperation c x (.get q k) env w = .error e := by
  simp [runOperation, h]

theorem runOperation_act {e : Effect} {k : Operation} (h : runEffect c env e w = .ok w') :
    runOperation c x (.act e k) env w = runOperation c x k env w' := by
  simp [runOperation, h]

theorem runOperation_act_error {e : Effect} {k : Operation} {a : Abort} (h : runEffect c env e w = .error a) :
    runOperation c x (.act e k) env w = .error a := by
  simp [runOperation, h]

@[simp] theorem runOperation_ite {b : NatExpr} {k l : Operation} :
    runOperation c x (.ite b k l) env w =
      if evalNat env b ≠ 0 then runOperation c x k env w else runOperation c x l env w := rfl

/-- A property of the working copy that every primitive keeps is kept by every operation (41_core_primitives.md R134). -/
theorem runOperation_keeps {P : Work → Prop} (op : Operation)
    (hq : ∀ env q w p, P w → runQuery c x env q w = .ok p → P p.2)
    (he : ∀ env e w w', P w → runEffect c env e w = .ok w' → P w')
    (hw : P w) (h : runOperation c x op env w = .ok w') : P w' := by
  induction op generalizing env w with
  | done => cases h; exact hw
  | get q k ih =>
    cases hr : runQuery c x env q w with
    | error e => rw [runOperation_get_error hr] at h; cases h
    | ok p => rw [runOperation_get hr] at h; exact ih (hq _ _ _ _ hw hr) h
  | act e k ih =>
    cases hr : runEffect c env e w with
    | error e => rw [runOperation_act_error hr] at h; cases h
    | ok w1 => rw [runOperation_act hr] at h; exact ih (he _ _ _ _ hw hr) h
  | ite b k l ihk ihl =>
    rw [runOperation_ite] at h
    split at h
    · exact ihk hw h
    · exact ihl hw h

/-- What `construct` asks of an operation: it writes no cursor (41_core_primitives.md R121) and names only values it has
read (log 5). -/
theorem admitted_iff (op : Operation) (n : Nat) :
    op.admitted n = true ↔ holdsCursorWrite op = false ∧ namesOnlyReadValues n op = true := by
  induction op generalizing n with
  | done => simp [Operation.admitted, holdsCursorWrite, namesOnlyReadValues]
  | get q k ih => simp [Operation.admitted, holdsCursorWrite, namesOnlyReadValues, ih, and_left_comm]
  | act e k ih =>
    cases e <;> simp [Operation.admitted, holdsCursorWrite, namesOnlyReadValues, Effect.keepsCursors, ih] <;> tauto
  | ite c a b iha ihb =>
    simp [Operation.admitted, holdsCursorWrite, namesOnlyReadValues, iha, ihb]; tauto

/-- An admitted operation never stops on a cursor write (41_core_primitives.md R121). -/
theorem runOperation_ne_cursorWrite (op : Operation) {n : Nat} (ha : op.admitted n = true) {r : Reg} :
    runOperation c x op env w ≠ .error (.cursorWrite r) := by
  induction op generalizing env w n with
  | done => simp
  | get q k ih =>
    simp only [Operation.admitted, Bool.and_eq_true] at ha
    cases hr : runQuery c x env q w with
    | ok p => rw [runOperation_get hr]; exact ih ha.2
    | error e =>
      rw [runOperation_get_error hr]
      rintro ⟨⟩
      cases q with
      | regRead | operand | memoryFlag | value => simp [runQuery] at hr
      | cacheRead a =>
        cases h : cacheRead c (evalNat env a) w with
        | ok => simp [runQuery, h] at hr
        | error e => simp [runQuery, h, (cacheRead_eq_error.1 h).2] at hr
      | portRead p =>
        cases h : portRead c (evalNat env p) w with
        | ok => simp [runQuery, h] at hr
        | error e => simp [runQuery, h, (portRead_eq_error.1 h).2] at hr
      | pop => simpa using (pop_eq_error.1 hr).2
      | apop => simpa using (apop_eq_error.1 hr).2
  | act e k ih =>
    simp only [Operation.admitted, Bool.and_eq_true] at ha
    cases hr : runEffect c env e w with
    | ok w' => rw [runOperation_act hr]; exact ih ha.2
    | error a =>
      rw [runOperation_act_error hr]
      rintro ⟨⟩
      cases e with
      | regWrite r' v =>
        have hk := ha.1.2
        cases r' with
        | acc | pr | fr => simpa using (storeReg_eq_error.1 hr).2
        | pc => simpa using (setPc_eq_error.1 hr).2
        | sp | asp => simp [Effect.keepsCursors] at hk
      | setPc t => simpa using (setPc_eq_error.1 hr).2
      | cacheWrite a v => rcases cacheWrite_eq_error.1 hr with h | h <;> simp_all
      | portWrite a v => rcases portWrite_eq_error.1 hr with h | h <;> simp_all
      | push v => rcases push_eq_error.1 hr with h | h <;> simp_all
      | apush v => rcases apush_eq_error.1 hr with h | h <;> simp_all
      | halt => simp [runEffect] at hr
  | ite b k l ihk ihl =>
    simp only [Operation.admitted, Bool.and_eq_true] at ha
    rw [runOperation_ite]
    split
    · exact ihk ha.1.2
    · exact ihl ha.2

/-! ## Commit -/

/-- Commit of an operation that neither set `PC` nor halted (40_engine_cycle.md R111, R112). -/
theorem commit_advanced (hh : w.haltRequest = false) (hp : w.pcWritten = false) :
    s.commit w = s.advanced w.regs w.segs w.out := by
  unfold State.commit State.advanced
  simp only [hh, hp]
  by_cases h : w.regs.pc + 1 < s.prog.length <;> simp [h]

/-- Commit of an operation that set `PC` (40_engine_cycle.md R110). -/
theorem commit_jumped (hh : w.haltRequest = false) (hp : w.pcWritten = true) :
    s.commit w = { s.jumped w.regs w.segs with outLog := s.outLog ++ w.out } := by
  simp [State.commit, State.jumped, hh, hp]

/-- Commit of an operation that halted (40_engine_cycle.md R113). -/
theorem commit_halted (hh : w.haltRequest = true) :
    s.commit w = { s.halted w.regs w.segs with outLog := s.outLog ++ w.out } := by
  simp [State.commit, State.halted, hh]

/-! ## One instruction -/

theorem execute_operand_fault {found : Except FaultInfo Operation} {mf : Bool} {value : Half}
    (h : s.OperandOutOfRange mf value) :
    s.execute found mf value = .next (s.enterFault (some s.work.regs.pc) (outOfRange .cache value.toNat)) := by
  simp [State.execute, resolve_eq_error.2 ⟨h, rfl⟩]

theorem execute_dispatch_fault {f : FaultInfo} {mf : Bool} {value : Half} {n : Nat} (h : s.HasOperand mf value n) :
    s.execute (.error f) mf value = .next (s.enterFault (some s.work.regs.pc) f) := by
  simp [State.execute, resolve_eq_ok.2 h]

theorem execute_ok {op : Operation} {mf : Bool} {value : Half} {n : Nat} (h : s.HasOperand mf value n)
    (hr : runOperation s.cfg ⟨n, mf, value.toNat⟩ op [] s.workingCopy = .ok w) :
    s.execute (.ok op) mf value = .next (s.commit w) := by
  simp [State.execute, resolve_eq_ok.2 h, hr]

theorem execute_fault {op : Operation} {mf : Bool} {value : Half} {n : Nat} {f : FaultInfo}
    (h : s.HasOperand mf value n)
    (hr : runOperation s.cfg ⟨n, mf, value.toNat⟩ op [] s.workingCopy = .error (.raise f)) :
    s.execute (.ok op) mf value = .next (s.enterFault (some s.work.regs.pc) f) := by
  simp [State.execute, resolve_eq_ok.2 h, hr]

/-- Everything an instruction can do where it answers a next state: it faults, with the instruction's own `PC` and
nothing committed, or it commits the working copy its operation ends with. -/
theorem execute_cases {found : Except FaultInfo Operation} {mf : Bool} {value : Half}
    (h : s.execute found mf value = .next t) :
    (∃ f, t = s.enterFault (some s.work.regs.pc) f) ∨
      ∃ op n w, found = .ok op ∧ s.HasOperand mf value n ∧
        runOperation s.cfg ⟨n, mf, value.toNat⟩ op [] s.workingCopy = .ok w ∧ t = s.commit w := by
  unfold State.execute at h
  split at h
  · cases h; exact .inl ⟨_, rfl⟩
  · next operand hres =>
    split at h
    · cases h; exact .inl ⟨_, rfl⟩
    · next op =>
      split at h
      · cases h; exact .inl ⟨_, rfl⟩
      · cases h
      · next w hw => cases h; exact .inr ⟨op, operand, w, rfl, resolve_eq_ok.1 hres, hw, rfl⟩

/-! ## Every meaning is one use of `execute` -/

theorem exec_dispatch (mf : Bool) (value : Half) (o : Byte) (s : State) :
    exec (.dispatch mf value o) s = s.execute (dispatched s.cfg.optable o) mf value := rfl

theorem exec_halt (mf : Bool) (value : Half) (s : State) :
    exec (.halt mf value) s = s.execute (.ok opHalt) mf value := rfl

theorem exec_push (mf : Bool) (value : Half) (s : State) :
    exec (.push mf value) s = s.execute (.ok opPush) mf value := rfl

theorem exec_pop (mf : Bool) (value : Half) (s : State) :
    exec (.pop mf value) s = s.execute (.ok opPop) mf value := rfl

theorem exec_add (mf : Bool) (value : Half) (s : State) :
    exec (.add mf value) s = s.execute (.ok opAdd) mf value := rfl

theorem exec_lda (mf : Bool) (value : Half) (s : State) :
    exec (.lda mf value) s = s.execute (.ok opLda) mf value := rfl

theorem exec_sta (mf : Bool) (value : Half) (s : State) :
    exec (.sta mf value) s = s.execute (.ok opSta) mf value := rfl

theorem exec_adda (mf : Bool) (value : Half) (s : State) :
    exec (.adda mf value) s = s.execute (.ok opAdda) mf value := rfl

theorem exec_suba (mf : Bool) (value : Half) (s : State) :
    exec (.suba mf value) s = s.execute (.ok opSuba) mf value := rfl

theorem exec_jmp (mf : Bool) (value : Half) (s : State) :
    exec (.jmp mf value) s = s.execute (.ok opJmp) mf value := rfl

theorem exec_jz (mf : Bool) (value : Half) (s : State) :
    exec (.jz mf value) s = s.execute (.ok opJz) mf value := rfl

theorem exec_call (mf : Bool) (value : Half) (s : State) :
    exec (.call mf value) s = s.execute (.ok opCall) mf value := rfl

theorem exec_ret (mf : Bool) (value : Half) (s : State) :
    exec (.ret mf value) s = s.execute (.ok opRet) mf value := rfl

theorem exec_inPort (mf : Bool) (value : Half) (s : State) :
    exec (.inPort mf value) s = s.execute (.ok opIn) mf value := rfl

theorem exec_outPort (mf : Bool) (value : Half) (s : State) :
    exec (.outPort mf value) s = s.execute (.ok opOut) mf value := rfl

theorem exec_ldp (mf : Bool) (value : Half) (s : State) :
    exec (.ldp mf value) s = s.execute (.ok opLdp) mf value := rfl

theorem exec_ldi (mf : Bool) (value : Half) (s : State) :
    exec (.ldi mf value) s = s.execute (.ok opLdi) mf value := rfl

theorem exec_sti (mf : Bool) (value : Half) (s : State) :
    exec (.sti mf value) s = s.execute (.ok opSti) mf value := rfl

theorem exec_pusha (mf : Bool) (value : Half) (s : State) :
    exec (.pusha mf value) s = s.execute (.ok opPusha) mf value := rfl

theorem exec_cmp (mf : Bool) (value : Half) (s : State) :
    exec (.cmp mf value) s = s.execute (.ok opCmp) mf value := rfl

theorem exec_jf (mf : Bool) (value : Half) (s : State) :
    exec (.jf mf value) s = s.execute (.ok opJf) mf value := rfl

theorem exec_unassigned (mf : Bool) (value : Half) (o : Byte) (s : State) :
    exec (.unassigned mf value o) s = s.execute (.error (unknownOpcode o)) mf value := rfl

/-- Every instruction is `execute` on its own `mf` and `value`, and the only fault its dispatch can give is
`UnknownOpcode` (40_engine_cycle.md R100, R105). -/
theorem exec_eq_execute (i : Instr) (s : State) :
    ∃ found, exec i s = s.execute found i.toTriple.mf i.toTriple.value ∧
      ∀ f, found = .error f → f.kind = .unknownOpcode := by
  cases i
  case dispatch mf value o =>
    refine ⟨_, exec_dispatch mf value o s, fun f h => ?_⟩
    unfold dispatched at h
    split at h <;> cases h
    rfl
  case unassigned mf value o => exact ⟨_, exec_unassigned mf value o s, fun f h => by cases h; rfl⟩
  case halt mf value => exact ⟨_, exec_halt mf value s, fun f h => by cases h⟩
  case push mf value => exact ⟨_, exec_push mf value s, fun f h => by cases h⟩
  case pop mf value => exact ⟨_, exec_pop mf value s, fun f h => by cases h⟩
  case add mf value => exact ⟨_, exec_add mf value s, fun f h => by cases h⟩
  case lda mf value => exact ⟨_, exec_lda mf value s, fun f h => by cases h⟩
  case sta mf value => exact ⟨_, exec_sta mf value s, fun f h => by cases h⟩
  case adda mf value => exact ⟨_, exec_adda mf value s, fun f h => by cases h⟩
  case suba mf value => exact ⟨_, exec_suba mf value s, fun f h => by cases h⟩
  case jmp mf value => exact ⟨_, exec_jmp mf value s, fun f h => by cases h⟩
  case jz mf value => exact ⟨_, exec_jz mf value s, fun f h => by cases h⟩
  case call mf value => exact ⟨_, exec_call mf value s, fun f h => by cases h⟩
  case ret mf value => exact ⟨_, exec_ret mf value s, fun f h => by cases h⟩
  case inPort mf value => exact ⟨_, exec_inPort mf value s, fun f h => by cases h⟩
  case outPort mf value => exact ⟨_, exec_outPort mf value s, fun f h => by cases h⟩
  case ldp mf value => exact ⟨_, exec_ldp mf value s, fun f h => by cases h⟩
  case ldi mf value => exact ⟨_, exec_ldi mf value s, fun f h => by cases h⟩
  case sti mf value => exact ⟨_, exec_sti mf value s, fun f h => by cases h⟩
  case pusha mf value => exact ⟨_, exec_pusha mf value s, fun f h => by cases h⟩
  case cmp mf value => exact ⟨_, exec_cmp mf value s, fun f h => by cases h⟩
  case jf mf value => exact ⟨_, exec_jf mf value s, fun f h => by cases h⟩

/-! ## The step -/

theorem step_of_not_running (h : s.engine ≠ .running) : Sys2Proof.Machine.step s = .next s := by
  unfold Sys2Proof.Machine.step
  cases hs : s.engine <;> simp_all

theorem step_of_fetch {i : Triple} (h : s.engine = .running) (hf : s.fetch = some i) :
    Sys2Proof.Machine.step s = exec (Instr.ofTriple s.cfg.optable i) s := by
  unfold Sys2Proof.Machine.step
  rw [h, hf]

theorem step_of_no_fetch (h : s.engine = .running) (hf : s.fetch = none) :
    Sys2Proof.Machine.step s = .next (s.enterFault (some s.work.regs.pc) (pcOutOfRange s.work.regs.pc)) := by
  unfold Sys2Proof.Machine.step
  rw [h, hf]

/-- Everything a step can do where it answers a next state: nothing outside `running`; in `running` it faults, or it
commits the working copy an operation ends with. -/
theorem step_cases (h : Sys2Proof.Machine.step s = .next t) :
    (s.engine ≠ .running ∧ t = s) ∨
      (s.engine = .running ∧ ∃ f, t = s.enterFault (some s.work.regs.pc) f) ∨
      (s.engine = .running ∧ ∃ op x w, runOperation s.cfg x op [] s.workingCopy = .ok w ∧ t = s.commit w) := by
  by_cases hr : s.engine = .running
  · right
    cases hf : s.fetch with
    | none => rw [step_of_no_fetch hr hf] at h; cases h; exact .inl ⟨hr, _, rfl⟩
    | some i =>
      rw [step_of_fetch hr hf] at h
      obtain ⟨found, e, -⟩ := exec_eq_execute (Instr.ofTriple s.cfg.optable i) s
      rw [e] at h
      rcases execute_cases h with ⟨f, hf⟩ | ⟨op, n, w, -, -, h1, h2⟩
      · exact .inl ⟨hr, f, hf⟩
      · exact .inr ⟨hr, op, _, w, h1, h2⟩
  · rw [step_of_not_running hr] at h; cases h; exact .inl ⟨hr, rfl⟩

/-- A run of one machine one step on. -/
theorem run_succ {M : Host.Core} {a b : M.State} (h : M.step a = .next b) (k : Nat) : M.run (k + 1) a = M.run k b := by
  rw [Host.Core.run, h]

/-- A fault record written out, as the statements write it (60_exceptions.md R168, R169). -/
theorem enterFault_eq_faulted (f : FaultInfo) :
    s.enterFault (some s.work.regs.pc) f = s.faulted f.kind (faultCode f.kind) f.seg f.index := rfl

end Sys2Proof.Machine
end

