-- ==== Sys2Proof/Laws/PerInstr.lean ====
section
/-! SUPPORT. The per-instruction law about instructions as syntax: the shape of an instruction's four bytes
(30_encoding.md R89). -/

namespace Sys2Proof.Laws.EncodedShape

open Sys2Proof

/-- The encoding is four bytes: byte 0 is the memory flag alone, byte 3 the opcode, and the row restricts the opcode. -/
def Statement (i : Instr) : Prop :=
  i.wf = true →
    ∃ b1 b2, encode i = [if i.toTriple.mf then 0x01#8 else 0x00#8, b1, b2, i.toTriple.opcode] ∧
      (Instr.isGeneric i = false → Instr.ofRt i.toTriple = i)

theorem dispatch (mf : Bool) (value : Half) (opcode : Byte) : Statement (.dispatch mf value opcode) :=
  fun _ => ⟨_, _, rfl, fun h => by simp [Instr.isGeneric] at h⟩

theorem halt (mf : Bool) (value : Half) : Statement (.halt mf value) := fun _ => ⟨_, _, rfl, fun _ => rfl⟩

theorem push (mf : Bool) (value : Half) : Statement (.push mf value) := fun _ => ⟨_, _, rfl, fun _ => rfl⟩

theorem pop (mf : Bool) (value : Half) : Statement (.pop mf value) := fun _ => ⟨_, _, rfl, fun _ => rfl⟩

theorem add (mf : Bool) (value : Half) : Statement (.add mf value) := fun _ => ⟨_, _, rfl, fun _ => rfl⟩

theorem lda (mf : Bool) (value : Half) : Statement (.lda mf value) := fun _ => ⟨_, _, rfl, fun _ => rfl⟩

theorem sta (mf : Bool) (value : Half) : Statement (.sta mf value) := fun _ => ⟨_, _, rfl, fun _ => rfl⟩

theorem adda (mf : Bool) (value : Half) : Statement (.adda mf value) := fun _ => ⟨_, _, rfl, fun _ => rfl⟩

theorem suba (mf : Bool) (value : Half) : Statement (.suba mf value) := fun _ => ⟨_, _, rfl, fun _ => rfl⟩

theorem jmp (mf : Bool) (value : Half) : Statement (.jmp mf value) := fun _ => ⟨_, _, rfl, fun _ => rfl⟩

theorem jz (mf : Bool) (value : Half) : Statement (.jz mf value) := fun _ => ⟨_, _, rfl, fun _ => rfl⟩

theorem call (mf : Bool) (value : Half) : Statement (.call mf value) := fun _ => ⟨_, _, rfl, fun _ => rfl⟩

theorem ret (mf : Bool) (value : Half) : Statement (.ret mf value) := fun _ => ⟨_, _, rfl, fun _ => rfl⟩

theorem inPort (mf : Bool) (value : Half) : Statement (.inPort mf value) := fun _ => ⟨_, _, rfl, fun _ => rfl⟩

theorem outPort (mf : Bool) (value : Half) : Statement (.outPort mf value) := fun _ => ⟨_, _, rfl, fun _ => rfl⟩

theorem ldp (mf : Bool) (value : Half) : Statement (.ldp mf value) := fun _ => ⟨_, _, rfl, fun _ => rfl⟩

theorem ldi (mf : Bool) (value : Half) : Statement (.ldi mf value) := fun _ => ⟨_, _, rfl, fun _ => rfl⟩

theorem sti (mf : Bool) (value : Half) : Statement (.sti mf value) := fun _ => ⟨_, _, rfl, fun _ => rfl⟩

theorem pusha (mf : Bool) (value : Half) : Statement (.pusha mf value) := fun _ => ⟨_, _, rfl, fun _ => rfl⟩

theorem cmp (mf : Bool) (value : Half) : Statement (.cmp mf value) := fun _ => ⟨_, _, rfl, fun _ => rfl⟩

theorem jf (mf : Bool) (value : Half) : Statement (.jf mf value) := fun _ => ⟨_, _, rfl, fun _ => rfl⟩

theorem unassigned (mf : Bool) (value : Half) (opcode : Byte) : Statement (.unassigned mf value opcode) := by
  intro h
  refine ⟨_, _, rfl, fun _ => ?_⟩
  have h : 0x14 ≤ opcode.toNat := by simpa [Instr.wf] using h
  unfold Instr.ofRt Instr.toTriple
  split <;> first | rfl | (exfalso; simp_all)

end Sys2Proof.Laws.EncodedShape
end

