-- ==== Sys2Proof/Tests/Slice0.lean ====
section
/-! SUPPORT. The model's own tests. Every expected result comes from the spec: the encodings of 30_encoding.md and
42_reference_ops.md, and the vectors of 95_test_vectors.md, whose numbers the comments name. The last part shows, for
each statement with hypotheses, a concrete state and operands that meet them, each clause at a boundary value. -/

namespace Sys2Proof.Tests

open Sys2Proof Sys2Proof.Machine

/-! ## Well-formedness: one ill-formed term for each check, and its well-formed neighbour -/

/-- 42_reference_ops.md R157: the row `unassigned` begins at 0x14. -/
theorem test_wf_unassigned : (Instr.unassigned false 0 0x13).wf = false ∧ (Instr.unassigned false 0 0x14).wf = true := by
  decide

/-- 41_core_primitives.md R121: an operation that writes a cursor is refused; one that writes another register is not. -/
theorem test_wf_cursor :
    (Operation.act (.regWrite .sp (.nat (.lit 0))) .done).admitted 0 = false ∧
    (Operation.act (.regWrite .asp (.nat (.lit 0))) .done).admitted 0 = false ∧
    (Operation.get .pop (.ite (.tmp 0) .done (.act (.regWrite .sp (.nat (.tmp 0))) .done))).admitted 0 = false ∧
    (Operation.act (.regWrite .pc (.nat (.lit 0))) .done).admitted 0 = true := by
  decide

/-- Log 5: an expression may name only values already read. -/
theorem test_wf_scope :
    (Operation.act (.push (.nat (.tmp 0))) .done).admitted 0 = false ∧
    (Operation.get .operand (.act (.push (.diff (.tmp 0) (.tmp 1))) .done)).admitted 0 = false ∧
    (Operation.get (.cacheRead (.tmp 0)) .done).admitted 0 = false ∧
    (Operation.ite (.eq (.tmp 0) (.lit 0)) .done .done).admitted 0 = false ∧
    (Operation.get .operand (.act (.cacheWrite (.tmp 0) (.nat (.lit 7))) .done)).admitted 0 = true := by
  decide

/-- 70_reset_and_hazards.md R181: each check of `construct`, and its boundary. -/
theorem test_wf_params :
    construct { Params.reference with width := 0, stackSize := 0, astackSize := 0 } = none ∧
    construct { Params.reference with width := 2, stackSize := 4 } = none ∧
    construct { Params.reference with width := 2, stackSize := 3, astackSize := 4 } = none ∧
    construct { Params.reference with optable := .given [(7, .act (.regWrite .sp (.nat (.lit 0))) .done)] } = none ∧
    (construct { Params.reference with width := 2, stackSize := 3, astackSize := 3 }).isSome = true ∧
    construct Params.reference = some State.reset := by
  decide

/-- 42_reference_ops.md R135: RT's twenty operations, as data, are a well-formed table. -/
theorem test_wf_rt : (OpTable.given rtEntries).wf = true ∧ rtEntries.length = 20 := by decide

/-! ## Decoding: words written out from the spec's encodings -/

/-- 95_test_vectors.md V1. -/
theorem test_decode_groups :
    Triple.decode 0x00 0xFF 0xFF 0xFF = ⟨false, 65535, 255⟩ ∧ Triple.decode 0xFF 0x00 0x01 0x04 = ⟨true, 1, 4⟩ ∧
    Triple.decode 0xFE 0x00 0x07 0x04 = ⟨false, 7, 4⟩ ∧ Triple.decode 0x00 0x12 0x34 0x56 = ⟨false, 4660, 0x56⟩ ∧
    Triple.decode 0x00 0x34 0x12 0x56 = ⟨false, 13330, 0x56⟩ ∧ Triple.decode 0x01 0x01 0x2C 0x07 = ⟨true, 300, 7⟩ := by
  decide

/-- 30_encoding.md R89 and 95_test_vectors.md V1: the encoder's examples. -/
theorem test_encode_groups :
    (Triple.mk false 5 1).encode = [0x00, 0x00, 0x05, 0x01] ∧ (Triple.mk true 256 0x0A).encode = [0x01, 0x01, 0x00, 0x0A] ∧
    (Triple.mk true 300 7).encode = [0x01, 0x01, 0x2C, 0x07] ∧
    (Triple.decode 0xFF 0x00 0x01 0x04).encode = [0x01, 0x00, 0x01, 0x04] := by
  decide

/-- 42_reference_ops.md R137 to R140: the stack and halt family. -/
theorem test_decode_stack_family :
    decode .rt [0x00, 0x00, 0x00, 0x00] = .ok (.halt false 0, []) ∧
    decode .rt [0x00, 0x00, 0x05, 0x01] = .ok (.push false 5, []) ∧
    decode .rt [0x00, 0x00, 0x00, 0x02] = .ok (.pop false 0, []) ∧
    decode .rt [0x00, 0x00, 0x00, 0x03] = .ok (.add false 0, []) := ⟨rfl, rfl, rfl, rfl⟩

/-- 42_reference_ops.md R141 to R144: the accumulator family. -/
theorem test_decode_accumulator_family :
    decode .rt [0x01, 0x00, 0x01, 0x04] = .ok (.lda true 1, []) ∧
    decode .rt [0x00, 0x00, 0x00, 0x05] = .ok (.sta false 0, []) ∧
    decode .rt [0x01, 0x00, 0x00, 0x06] = .ok (.adda true 0, []) ∧
    decode .rt [0x00, 0x00, 0x01, 0x07] = .ok (.suba false 1, []) := ⟨rfl, rfl, rfl, rfl⟩

/-- 42_reference_ops.md R145 to R148: the control-transfer family. -/
theorem test_decode_control_family :
    decode .rt [0x00, 0x00, 0x02, 0x08] = .ok (.jmp false 2, []) ∧
    decode .rt [0x00, 0x00, 0x0A, 0x09] = .ok (.jz false 10, []) ∧
    decode .rt [0x00, 0x00, 0x03, 0x0A] = .ok (.call false 3, []) ∧
    decode .rt [0x00, 0x00, 0x00, 0x0B] = .ok (.ret false 0, []) := ⟨rfl, rfl, rfl, rfl⟩

/-- 42_reference_ops.md R149 to R154: the port and pointer families. -/
theorem test_decode_port_and_pointer_families :
    decode .rt [0x00, 0x00, 0x02, 0x0C] = .ok (.inPort false 2, []) ∧
    decode .rt [0x00, 0x00, 0x00, 0x0D] = .ok (.outPort false 0, []) ∧
    decode .rt [0x00, 0x00, 0x14, 0x0E] = .ok (.ldp false 20, []) ∧
    decode .rt [0x00, 0x00, 0x00, 0x0F] = .ok (.ldi false 0, []) ∧
    decode .rt [0x00, 0x00, 0x00, 0x10] = .ok (.sti false 0, []) ∧
    decode .rt [0x00, 0x00, 0x00, 0x11] = .ok (.pusha false 0, []) := ⟨rfl, rfl, rfl, rfl, rfl, rfl⟩

/-- 42_reference_ops.md R155 to R157 and 30_encoding.md R92: the flag family, an unassigned opcode, and the generic row
under a table supplied from outside; R81: a short group is no instruction. -/
theorem test_decode_flag_family_and_rest :
    decode .rt [0x00, 0x00, 0x07, 0x12] = .ok (.cmp false 7, []) ∧
    decode .rt [0x00, 0x00, 0x08, 0x13] = .ok (.jf false 8, []) ∧
    decode .rt [0x00, 0x00, 0x00, 0x14] = .ok (.unassigned false 0 0x14, []) ∧
    decode (.given []) [0x01, 0x00, 0x0A, 0x01, 0xAA] = .ok (.dispatch true 10 0x01, [0xAA]) ∧
    decode .rt [0x00, 0x00, 0x08] = .error .shortGroup := ⟨rfl, rfl, rfl, rfl, rfl⟩

/-- 30_encoding.md R87: the word view, `mf = word[24]`, `value = word[23:8]`, `opcode = word[7:0]`. -/
theorem test_decode_table_words :
    decodeTableWord 32 0x01012C07 = some (.suba true 300) ∧ decodeTableWord 32 0x00000501 = some (.push false 5) ∧
    decodeTableWord 32 0xFE000713 = some (.jf false 7) ∧ decodeTableWord 32 0x000000FF = some (.unassigned false 0 0xFF) := by
  decide

/-- 95_test_vectors.md V2: images that load; the tail of two bytes is ignored and opcode 0xFF is not checked. -/
theorem test_load_images :
    State.reset.load [0x51, 0x54, 0x00] = some { State.reset with loaded := true } ∧
    State.reset.load [0x51, 0x54, 0x00, 0x00, 0x00, 0x07, 0x04, 0x00, 0x00] =
      some { State.reset with prog := [⟨false, 7, 4⟩], loaded := true } ∧
    (State.reset.load [0x51, 0x54, 0x00, 0x00, 0x00, 0x00, 0x00, 0x00, 0x00, 0x00, 0xFF]).map State.instructionCount =
      some 2 := by
  decide

/-- The load fault of 60_exceptions.md R159 with this index. -/
abbrev malformedAt (i : Nat) : Option FaultRecord :=
  some { kind := .malformedProgram, code := 1, pc := none, seg := none, index := i }

/-- 95_test_vectors.md V2: images that do not load, and the index each reports. -/
theorem test_load_malformed_images :
    (State.reset.load []).map State.fault = some (malformedAt 0) ∧
    (State.reset.load [0x51, 0x54]).map State.fault = some (malformedAt 2) ∧
    (State.reset.load [0x00, 0x00, 0x00, 0x00, 0x00]).map State.fault = some (malformedAt 0) ∧
    (State.reset.load [0x51, 0x4D, 0x00, 0x00, 0x00, 0x00, 0x00]).map State.fault = some (malformedAt 0) ∧
    (State.reset.load [0x71, 0x74, 0x00, 0x00, 0x00, 0x00, 0x00]).map State.fault = some (malformedAt 0) ∧
    (State.reset.load [0x51, 0x54, 0x58, 0x00, 0x00, 0x00, 0x00, 0x00]).map State.fault = some (malformedAt 0) := by
  decide

/-- 30_encoding.md R82 at its boundary, on a core of width 1: two groups load, three are refused at offset 3 + 4 * 2. -/
theorem test_load_length :
    let s := State.fresh { Params.reference with width := 1, stackSize := 1, astackSize := 1 }
    (s.load (tagQT ++ [0x00] ++ List.replicate 11 0x00)).map State.instructionCount = some 2 ∧
    (s.load (tagQT ++ [0x00] ++ List.replicate 12 0x00)).map State.fault = some (malformedAt 11) := by
  decide

/-! ## One step -/

/-- A running instance with these parameters, registers and segments, the group at `PC` and one HALT after it. -/
def poised (p : Params) (regs : RegFile) (segs : Segments) (b0 b1 b2 b3 : Byte) : State :=
  { State.fresh p with
    prog := placeAt [] regs.pc (Triple.decode b0 b1 b2 b3) ++ [⟨false, 0, 0x00⟩]
    loaded := true
    engine := .running
    work := { regs := regs, segs := segs, pcWritten := false, haltRequest := false, out := [] } }

abbrev noRegs : RegFile := { acc := 0, pr := 0, pc := 0, fr := 0, sp := 0, asp := 0 }

abbrev noCells : Segments := { cache := [], stack := [], addressStack := [], ports := [] }

/-- A field of the state one step on. -/
def after {α : Type} (f : State → α) (s : State) : Option α :=
  match Sys2Proof.Machine.step s with
  | .next t => some (f t)
  | .fault _ => none
  | .refused _ => none

/-- What a fault leaves: the record, the registers and the segments. -/
abbrev faultView (t : State) : Option FaultRecord × RegFile × Segments := (t.fault, t.work.regs, t.work.segs)

abbrev reference : Params := Params.reference

/-- 95_test_vectors.md V9 R137. -/
theorem test_halt :
    after (fun t => (t.engine, t.work.regs.pc)) (poised reference noRegs noCells 0x00 0x00 0x00 0x00) =
      some (.halted, 0) := by
  decide

/-- 95_test_vectors.md V9 R138, V3.6: the operand, not the address, is pushed. -/
theorem test_push :
    after (fun t => (t.work.segs.stack, t.work.regs.sp, t.work.regs.pc)) (poised reference noRegs noCells 0x00 0x00 0x05 0x01) =
      some ([(0, 5)], 1, 1) ∧
    after (fun t => t.work.segs.stack)
      (poised reference noRegs { noCells with cache := [(3, 9)] } 0x01 0x00 0x03 0x01) = some [(0, 9)] := by
  decide

/-- 95_test_vectors.md V8.5: on a full stack the pointer check comes before the width check. -/
theorem test_push_full :
    after faultView (poised { reference with width := 8 } { noRegs with sp := 4 } noCells 0x00 0x01 0x2C 0x01) =
      some (some { kind := .stackOverflow, code := 4, pc := some 0, seg := some (.segment .stack), index := 4 },
        { noRegs with sp := 4 }, noCells) := by
  decide

/-- 95_test_vectors.md V9 R139, S4 (a). -/
theorem test_pop :
    after (fun t => (t.work.regs.acc, t.work.regs.sp, t.work.segs.stack))
      (poised reference { noRegs with sp := 1 } { noCells with stack := [(0, 8)] } 0x00 0x00 0x00 0x02) =
      some (8, 0, [(0, 8)]) ∧
    after (fun t => t.fault) (poised reference noRegs noCells 0x00 0x00 0x00 0x02) =
      some (some { kind := .stackUnderflow, code := 5, pc := some 0, seg := some (.segment .stack), index := 0 }) := by
  decide

/-- 95_test_vectors.md V9 R140. -/
theorem test_add :
    after (fun t => (t.work.segs.stack, t.work.regs.sp))
      (poised reference { noRegs with sp := 2 } { noCells with stack := [(0, 5), (1, 3)] } 0x00 0x00 0x00 0x03) =
      some ([(0, 8), (1, 3)], 1) := by
  decide

/-- 95_test_vectors.md V5.3: ADD's first pop is rolled back. -/
theorem test_add_underflow :
    after faultView (poised reference { noRegs with sp := 1, pc := 1 } { noCells with stack := [(0, 5)] } 0x00 0x00 0x00 0x03) =
      some (some { kind := .stackUnderflow, code := 5, pc := some 1, seg := some (.segment .stack), index := 0 },
        { noRegs with sp := 1, pc := 1 }, { noCells with stack := [(0, 5)] }) := by
  decide

/-- 95_test_vectors.md V9 R141, V3.5. -/
theorem test_lda :
    after (fun t => t.work.regs.acc) (poised reference noRegs { noCells with cache := [(1, 6)] } 0x01 0x00 0x01 0x04) = some 6 ∧
    after (fun t => t.work.regs.acc) (poised reference { noRegs with acc := 1 } noCells 0x01 0x00 0xFF 0x04) = some 0 := by
  decide

/-- 95_test_vectors.md V6.5, V6.6: the width policy. -/
theorem test_lda_width :
    after (fun t => t.fault) (poised { reference with width := 8 } noRegs noCells 0x00 0x01 0x2C 0x04) =
      some (some { kind := .cellWidthExceeded, code := 9, pc := some 0, seg := some (.register .acc), index := 0 }) ∧
    after (fun t => t.work.regs.acc)
      (poised { reference with width := 8, policy := .truncate } noRegs noCells 0x00 0x01 0x2C 0x04) = some 44 := by
  decide

/-- 95_test_vectors.md V3.7, V8.3: STA writes `cache[value]` whatever `mf` is. -/
theorem test_sta :
    after (fun t => t.work.segs.cache) (poised reference { noRegs with acc := 3 } noCells 0x01 0x00 0x02 0x05) =
      some [(2, 3)] ∧
    after (fun t => t.fault) (poised reference noRegs noCells 0x00 0x01 0x00 0x05) =
      some (some { kind := .addressOutOfRange, code := 3, pc := some 0, seg := some (.segment .cache), index := 256 }) := by
  decide

/-- 95_test_vectors.md V9 R143, V6.2. -/
theorem test_adda :
    after (fun t => t.work.regs.acc)
      (poised reference { noRegs with acc := 3 } { noCells with cache := [(0, 2)] } 0x01 0x00 0x00 0x06) = some 5 ∧
    after (fun t => t.work.regs.acc)
      (poised { reference with policy := .truncate } { noRegs with acc := 65535 } noCells 0x00 0x00 0x01 0x06) = some 0 := by
  decide

/-- 95_test_vectors.md V9 R144, V6.4. -/
theorem test_suba :
    after (fun t => t.work.regs.acc) (poised reference { noRegs with acc := 3 } noCells 0x00 0x00 0x01 0x07) = some 2 ∧
    after (fun t => t.work.regs.acc)
      (poised { reference with policy := .truncate } noRegs noCells 0x00 0x00 0x01 0x07) = some 65535 := by
  decide

/-- 95_test_vectors.md V6.3: a negative difference is too wide. -/
theorem test_suba_negative :
    after (fun t => t.fault) (poised reference noRegs noCells 0x00 0x00 0x01 0x07) =
      some (some { kind := .cellWidthExceeded, code := 9, pc := some 0, seg := some (.register .acc), index := 0 }) := by
  decide

/-- 95_test_vectors.md V9 R145, V7.5: the target is not checked against `N` by the jump. -/
theorem test_jmp :
    after (fun t => (t.work.regs.pc, t.engine)) (poised reference { noRegs with pc := 9 } noCells 0x00 0x00 0x02 0x08) =
      some (2, .running) ∧
    after (fun t => (t.work.regs.pc, t.engine)) (poised reference noRegs noCells 0x00 0x01 0x2C 0x08) =
      some (300, .running) := by
  decide

/-- 95_test_vectors.md V9 R146. -/
theorem test_jz :
    after (fun t => t.work.regs.pc) (poised reference { noRegs with pc := 8 } noCells 0x00 0x00 0x0A 0x09) = some 10 ∧
    after (fun t => t.work.regs.pc) (poised reference { noRegs with acc := 2, pc := 8 } noCells 0x00 0x00 0x0A 0x09) =
      some 9 := by
  decide

/-- 95_test_vectors.md V9 R147, V5.6 at its fifth step. -/
theorem test_call :
    after (fun t => (t.work.segs.addressStack, t.work.regs.asp, t.work.regs.pc))
      (poised reference noRegs noCells 0x00 0x00 0x03 0x0A) = some ([(0, 1)], 1, 3) ∧
    after (fun t => (t.fault, t.work.regs.asp)) (poised reference { noRegs with asp := 4 } noCells 0x00 0x00 0x00 0x0A) =
      some (some { kind := .addressStackOverflow, code := 6, pc := some 0, seg := some (.segment .addressStack), index := 4 },
        4) := by
  decide

/-- 95_test_vectors.md V9 R148, V5.5. -/
theorem test_ret :
    after (fun t => (t.work.regs.pc, t.work.regs.asp))
      (poised reference { noRegs with asp := 1 } { noCells with addressStack := [(0, 1)] } 0x00 0x00 0x00 0x0B) =
      some (1, 0) ∧
    after (fun t => t.fault) (poised reference noRegs noCells 0x00 0x00 0x00 0x0B) =
      some (some { kind := .addressStackUnderflow, code := 7, pc := some 0, seg := some (.segment .addressStack), index := 0 }) := by
  decide

/-- 95_test_vectors.md V9 R149, with its out-of-range corner. -/
theorem test_in :
    after (fun t => (t.work.regs.acc, t.outLog)) (poised reference noRegs { noCells with ports := [(2, 99)] } 0x00 0x00 0x02 0x0C) =
      some (99, []) ∧
    after (fun t => t.fault) (poised reference noRegs noCells 0x00 0x00 0x04 0x0C) =
      some (some { kind := .addressOutOfRange, code := 3, pc := some 0, seg := some (.segment .ports), index := 4 }) := by
  decide

/-- 95_test_vectors.md V9 R150, with its out-of-range corner. -/
theorem test_out :
    after (fun t => (t.work.segs.ports, t.outLog)) (poised reference { noRegs with acc := 6 } noCells 0x00 0x00 0x00 0x0D) =
      some ([(0, 6)], [(0, 6)]) ∧
    after (fun t => (t.fault, t.outLog)) (poised reference { noRegs with acc := 6 } noCells 0x00 0x00 0x04 0x0D) =
      some (some { kind := .addressOutOfRange, code := 3, pc := some 0, seg := some (.segment .ports), index := 4 }, []) := by
  decide

/-- 95_test_vectors.md V9 R151. -/
theorem test_ldp :
    after (fun t => (t.work.regs.pr, t.work.regs.acc)) (poised reference noRegs noCells 0x00 0x00 0x14 0x0E) = some (20, 0) := by
  decide

/-- 95_test_vectors.md V9 R152, with the corner `PR = 256`. -/
theorem test_ldi :
    after (fun t => t.work.regs.acc) (poised reference { noRegs with pr := 20 } { noCells with cache := [(20, 7)] } 0x00 0x00 0x00 0x0F) =
      some 7 ∧
    after (fun t => (t.fault, t.work.regs.pr)) (poised reference { noRegs with pr := 256, pc := 1 } noCells 0x00 0x00 0x00 0x0F) =
      some (some { kind := .addressOutOfRange, code := 3, pc := some 1, seg := some (.segment .cache), index := 256 }, 256) := by
  decide

/-- 95_test_vectors.md V9 R153. -/
theorem test_sti :
    after (fun t => t.work.segs.cache) (poised reference { noRegs with pr := 20, acc := 7 } noCells 0x00 0x00 0x00 0x10) =
      some [(20, 7)] := by
  decide

/-- 95_test_vectors.md V9 R154. -/
theorem test_pusha :
    after (fun t => (t.work.segs.stack, t.work.regs.sp)) (poised reference { noRegs with acc := 4 } noCells 0x00 0x00 0x00 0x11) =
      some ([(0, 4)], 1) := by
  decide

/-- 95_test_vectors.md V9 R155, V6.8. -/
theorem test_cmp :
    after (fun t => t.work.regs.fr) (poised reference { noRegs with acc := 7 } noCells 0x00 0x00 0x07 0x12) = some 1 ∧
    after (fun t => t.work.regs.fr) (poised reference { noRegs with acc := 7, fr := 1 } noCells 0x00 0x00 0x08 0x12) = some 0 ∧
    after (fun t => (t.work.regs.fr, t.fault))
      (poised { reference with width := 8 } { noRegs with acc := 44 } noCells 0x00 0x01 0x2C 0x12) = some (0, none) := by
  decide

/-- 95_test_vectors.md V9 R156. -/
theorem test_jf :
    after (fun t => t.work.regs.pc) (poised reference { noRegs with fr := 1, pc := 6 } noCells 0x00 0x00 0x08 0x13) = some 8 ∧
    after (fun t => t.work.regs.pc) (poised reference { noRegs with pc := 6 } noCells 0x00 0x00 0x08 0x13) = some 7 := by
  decide

/-- 95_test_vectors.md V4.1, V3.4: dispatch faults, unless resolution faulted first. -/
theorem test_unassigned :
    after (fun t => t.fault) (poised reference noRegs noCells 0x00 0x00 0x00 0x14) =
      some (some { kind := .unknownOpcode, code := 2, pc := some 0, seg := none, index := 20 }) ∧
    after (fun t => t.fault) (poised reference noRegs noCells 0x01 0x01 0x00 0xFF) =
      some (some { kind := .addressOutOfRange, code := 3, pc := some 0, seg := some (.segment .cache), index := 256 }) := by
  decide

/-- A table of one opcode, 0x42: it writes two port events, jumps to 1 and halts. -/
abbrev oneOp : OpTable :=
  .given [(0x42, .get .operand (.act (.portWrite (.lit 0) (.nat (.tmp 0)))
    (.act (.portWrite (.lit 0) (.nat (.add (.tmp 0) (.lit 1)))) (.act (.setPc (.nat (.lit 1))) (.act .halt .done)))))]

/-- 41_core_primitives.md R122, R126: two writes to one port make two events in order, and `SET_PC` then `HALT` halts
with `PC` = target; 30_encoding.md R92: another opcode is unknown. -/
theorem test_dispatch :
    after (fun t => (t.outLog, t.work.regs.pc, t.engine))
      (poised { reference with optable := oneOp } noRegs noCells 0x00 0x00 0x05 0x42) =
      some ([(0, 5), (0, 6)], 1, .halted) ∧
    after (fun t => t.fault) (poised { reference with optable := oneOp } noRegs noCells 0x00 0x00 0x05 0x01) =
      some (some { kind := .unknownOpcode, code := 2, pc := some 0, seg := none, index := 1 }) := by
  decide

/-- 95_test_vectors.md V7.1, V7.2: the empty program faults at its first step; the last instruction halts. -/
theorem test_fetch_and_exhaustion :
    after (fun t => (t.fault, t.engine)) State.reset.start =
      some (some { kind := .programCounterOutOfRange, code := 8, pc := some 0, seg := none, index := 0 }, .faulted) ∧
    after (fun t => (t.work.regs.acc, t.work.regs.pc, t.engine))
      { (poised reference noRegs noCells 0x00 0x00 0x00 0x00) with prog := [⟨false, 7, 0x04⟩] } = some (7, 0, .halted) := by
  decide

/-- Log 9: the word stands where the next step fetches, also where `PC` lies beyond the program. -/
theorem test_with_fetch_word :
    after (fun t => (t.work.regs.sp, t.work.segs.stack)) (State.reset.withFetchWord 32 0x00000501) = some (1, [(0, 5)]) ∧
    (({ State.reset with work := { State.reset.work with regs := { noRegs with pc := 3 } } } : State).withFetchWord 32
      0x01012C07).fetch = some ⟨true, 300, 7⟩ := by
  decide

/-! ## Witnesses: a concrete state and operands that meet the hypotheses of each statement, clause by clause -/

/-- A running instance with something in every register and segment. -/
abbrev busyRegs : RegFile := { acc := 3, pr := 20, pc := 0, fr := 1, sp := 2, asp := 1 }

abbrev busyCells : Segments :=
  { cache := [(0, 2), (20, 7), (255, 65535)], stack := [(0, 5), (1, 3)], addressStack := [(0, 1)], ports := [(2, 99)] }

def busy : State := poised reference busyRegs busyCells 0x00 0x00 0x05 0x01

/-- The same with both stacks full and `PR` at the cache's end. -/
def full : State := poised reference { busyRegs with sp := 4, asp := 4, pr := 256 } busyCells 0x00 0x00 0x05 0x01

/-- The same with both stacks empty, `ACC` and `FR` 0, and `PR` the last cache index. -/
def idle : State := poised reference { noRegs with pr := 255 } noCells 0x00 0x00 0x05 0x01

/-- A core of width 8 under `fault`, its accumulator at the top. -/
def narrow : State :=
  poised { reference with width := 8 } { noRegs with acc := 255, sp := 2, fr := 1 }
    { noCells with stack := [(0, 255), (1, 1)] } 0x00 0x01 0x00 0x01

/-- A core of width 8 under `truncate`. -/
def clipped : State :=
  poised { reference with width := 8, policy := .truncate } { noRegs with acc := 255, sp := 2, fr := 1 }
    { noCells with stack := [(0, 255), (1, 1)] } 0x00 0x01 0x00 0x01

theorem busy_work_inv : busy.work.Inv busy.cfg := by constructor <;> decide

theorem full_work_inv : full.work.Inv full.cfg := by constructor <;> decide

theorem idle_work_inv : idle.work.Inv idle.cfg := by constructor <;> decide

theorem narrow_work_inv : narrow.work.Inv narrow.cfg := by constructor <;> decide

theorem clipped_work_inv : clipped.work.Inv clipped.cfg := by constructor <;> decide

/-- The invariant's witnesses: the reset state, and a running state with something in every part. -/
theorem reset_inv : State.reset.Inv := by
  constructor
  case work => constructor <;> decide
  case faultCode => intro r h; cases h
  all_goals decide

theorem busy_inv : busy.Inv := by
  constructor
  case work => exact busy_work_inv
  case faultCode => intro r h; cases h
  all_goals decide

/-- The two operand forms at their boundaries, on which every instruction statement rests. -/
theorem witness_operands :
    busy.HasOperand false 65535 65535 ∧ busy.HasOperand true 255 65535 ∧ busy.OperandOutOfRange true 256 ∧
      idle.HasOperand true 0 0 ∧ narrow.HasOperand false 256 256 := by
  decide

/-- The three ways a written value ends, at the boundaries of `[0, 2^W)`. -/
theorem witness_written_values :
    Stores narrow.cfg 255 255 ∧ TooWide narrow.cfg 256 ∧ TooWide narrow.cfg (-1) ∧ Stores narrow.cfg 0 0 ∧
      Stores clipped.cfg 256 0 ∧ Stores clipped.cfg (-1) 255 := by
  decide

theorem witness_ConstructGivesResetState : construct Params.reference = some State.reset := by decide

theorem witness_ConstructChecksParameters :
    ({ reference with width := 0 } : Params).width = 0 ∧
    2 ^ ({ reference with width := 2, stackSize := 4 } : Params).width - 1 < 4 ∧
    2 ^ ({ reference with width := 2, astackSize := 4 } : Params).width - 1 < 4 ∧
    holdsCursorWrite (.get .pop (.act (.regWrite .asp (.nat (.tmp 0))) .done)) = true ∧
    namesOnlyReadValues 0 (.get .pop (.act (.push (.nat (.tmp 1))) .done)) = false ∧
    (let p : Params := { reference with width := 2, stackSize := 3, astackSize := 3, optable := .given rtEntries }
     1 ≤ p.width ∧ p.stackSize ≤ 2 ^ p.width - 1 ∧ p.astackSize ≤ 2 ^ p.width - 1 ∧
      ∀ e ∈ rtEntries, holdsCursorWrite e.2 = false ∧ namesOnlyReadValues 0 e.2 = true) ∧
    (reference.optable = .rt ∧ 1 ≤ reference.width ∧ reference.stackSize ≤ 2 ^ reference.width - 1 ∧
      reference.astackSize ≤ 2 ^ reference.width - 1) := by
  decide

theorem witness_ConstructedInstanceSatisfiesInvariant : construct Params.reference = some State.reset := by decide

theorem witness_DecodeOfEncodeIsIdentity :
    ((Instr.unassigned true 65535 0x14).wf = true ∧ (Instr.unassigned true 65535 0x14).namedUnder .rt = true) ∧
    ((Instr.dispatch false 0 0xFF).wf = true ∧ (Instr.dispatch false 0 0xFF).namedUnder (.given []) = true) := by
  decide

theorem witness_EncodeOfDecodeIsIdentity :
    ((0x01 : Byte) = 0x00 ∨ (0x01 : Byte) = 0x01) ∧ (Triple.mk true 1 4).encode = (Triple.decode 0xFF 0 1 4).encode := by
  decide

/-- One group and a tail of three bytes, on a fresh instance; the group's bytes are where the clause reads them. -/
theorem witness_LoadCutsQtImages :
    let body : List Byte := [0x00, 0x00, 0x07, 0x04, 0x00, 0x00, 0x00]
    State.reset.engine = .ready ∧ State.reset.loaded = false ∧ body.length / 4 ≤ 2 ^ State.reset.cfg.width ∧
      body[4 * 0]? = some 0x00 ∧ body[4 * 0 + 1]? = some 0x00 ∧ body[4 * 0 + 2]? = some 0x07 ∧
      body[4 * 0 + 3]? = some 0x04 := by
  decide

/-- The empty image; the tag `QTX`; and on a core of width 1 a body of three groups. -/
theorem witness_MalformedImagesFault :
    State.reset.engine = .ready ∧ State.reset.loaded = false ∧ (∀ b ∈ ([] : List Byte), b ≠ 0x00#8) ∧
    ((∀ b ∈ [0x51#8, 0x54#8, 0x58#8], b ≠ 0x00#8) ∧ [0x51#8, 0x54#8, 0x58#8] ≠ [0x51#8, 0x54#8]) ∧
    (let s := State.fresh { reference with width := 1, stackSize := 1, astackSize := 1 }
     s.engine = .ready ∧ s.loaded = false ∧ 2 ^ s.cfg.width < (List.replicate 12 (0x00#8)).length / 4) := by
  decide

theorem witness_LoadRunsOnceInReady :
    busy.engine ≠ .ready ∧ State.reset.load tagQT = some (State.reset.enterFault none (malformedProgram 2)) := by
  decide

theorem witness_StartEntersRunning : State.reset.engine = .ready ∧ busy.engine ≠ .ready := by decide

theorem witness_HostPortWriteSetsOneCell :
    (3 < busy.cfg.portsSize ∧ 65535 < 2 ^ busy.cfg.width ∧ Memory.wf busy.work.segs.ports = true) ∧
    busy.cfg.portsSize ≤ 4 ∧ 2 ^ busy.cfg.width ≤ 65536 ∧ evalNat [] (.lit 3) = 3 := by
  decide

theorem witness_StepsOutsideRunningChangeNothing :
    State.reset.engine ≠ .running ∧ (busy.halted busyRegs busyCells).engine ≠ .running := by
  decide

theorem witness_FetchOutOfRangeFaults :
    (State.reset.start.engine = .running ∧ State.reset.start.prog.length ≤ State.reset.start.work.regs.pc) ∧
    construct Params.reference = some State.reset ∧
    State.reset.load [0x51#8, 0x54#8, 0x00#8] = some { State.reset with loaded := true } := by
  decide

theorem witness_StepRunsDecodedInstruction :
    busy.engine = .running ∧ busy.prog[busy.work.regs.pc]? = some (Triple.decode 0x00 0x00 0x05 0x01) ∧
      decode busy.cfg.optable [0x00, 0x00, 0x05, 0x01] = .ok (.push false 5, []) := ⟨rfl, rfl, rfl⟩

theorem witness_OperandOutOfRangeFaultsFirst :
    (Instr.halt true 256).toTriple.mf = true ∧ busy.cfg.cacheSize ≤ (Instr.halt true 256).toTriple.value.toNat := by
  decide

theorem witness_HaltHalts : busy.HasOperand false 0 0 ∧ busy.HasOperand true 255 65535 := by decide

theorem witness_PushPushesOperand :
    (busy.HasOperand false 5 5 ∧ busy.work.regs.sp < busy.cfg.stackSize ∧ Stores busy.cfg 5 5) ∧
    (full.HasOperand false 5 5 ∧ full.cfg.stackSize ≤ full.work.regs.sp) ∧
    (narrow.HasOperand false 256 256 ∧ narrow.work.regs.sp < narrow.cfg.stackSize ∧ TooWide narrow.cfg 256) := by
  decide

theorem witness_PopLoadsTopOfStack :
    (busy.HasOperand false 0 0 ∧ busy.work.regs.sp ≠ 0) ∧ (idle.HasOperand false 0 0 ∧ idle.work.regs.sp = 0) ∧
    busy.work.Inv busy.cfg ∧ idle.work.Inv idle.cfg :=
  ⟨by decide, by decide, busy_work_inv, idle_work_inv⟩

theorem witness_AddReplacesTopTwoBySum :
    (busy.HasOperand false 0 0 ∧ 2 ≤ busy.work.regs.sp ∧ Stores busy.cfg 8 8) ∧
    (idle.HasOperand false 0 0 ∧ idle.work.regs.sp < 2) ∧
    (narrow.HasOperand false 0 0 ∧ 2 ≤ narrow.work.regs.sp ∧
      TooWide narrow.cfg ((Memory.read narrow.work.segs.stack 0 + Memory.read narrow.work.segs.stack 1 : Nat) : Int)) ∧
    busy.work.Inv busy.cfg ∧ idle.work.Inv idle.cfg ∧ narrow.work.Inv narrow.cfg :=
  ⟨by decide, by decide, by decide, busy_work_inv, idle_work_inv, narrow_work_inv⟩

theorem witness_LdaLoadsOperand :
    (busy.HasOperand true 255 65535 ∧ Stores busy.cfg 65535 65535) ∧
    (narrow.HasOperand false 256 256 ∧ TooWide narrow.cfg 256) ∧ (clipped.HasOperand false 256 256 ∧ Stores clipped.cfg 256 0) := by
  decide

theorem witness_StaStoresAccumulator :
    busy.work.Inv busy.cfg ∧ (255 : Half).toNat < busy.cfg.cacheSize ∧ busy.cfg.cacheSize ≤ (256 : Half).toNat :=
  ⟨busy_work_inv, by decide, by decide⟩

theorem witness_AddaAddsOperand :
    (busy.HasOperand true 20 7 ∧ Stores busy.cfg (busy.work.regs.acc + 7) 10) ∧
    (narrow.HasOperand false 1 1 ∧ TooWide narrow.cfg (narrow.work.regs.acc + 1)) ∧
    (clipped.HasOperand false 1 1 ∧ Stores clipped.cfg (clipped.work.regs.acc + 1) 0) := by
  decide

theorem witness_SubaSubtractsOperand :
    (busy.HasOperand false 3 3 ∧ Stores busy.cfg ((busy.work.regs.acc : Int) - 3) 0) ∧
    (busy.HasOperand false 4 4 ∧ TooWide busy.cfg ((busy.work.regs.acc : Int) - 4)) ∧
    (clipped.HasOperand false 256 256 ∧ Stores clipped.cfg ((clipped.work.regs.acc : Int) - 256) 255) := by
  decide

theorem witness_JmpSetsPc :
    (busy.HasOperand false 2 2 ∧ Stores busy.cfg 2 2 ∧ busy.engine = .running ∧ busy.prog.length ≤ 2) ∧
    (narrow.HasOperand false 256 256 ∧ TooWide narrow.cfg 256) ∧
    (let s := poised reference { noRegs with pc := 3 } noCells 0x00 0x00 0x03 0x08
     s.HasOperand false 3 3 ∧ s.cfg.optable = .rt ∧ s.engine = .running ∧ s.fetch = some ⟨false, 3, 0x08⟩ ∧
      s.work.regs.pc = 3 ∧ 3 < 2 ^ s.cfg.width) ∧
    (let s := poised reference { noRegs with pc := 3 } { noCells with cache := [(255, 3)] } 0x01 0x00 0xFF 0x08
     s.HasOperand true 255 3 ∧ s.cfg.optable = .rt ∧ s.engine = .running ∧ s.fetch = some ⟨true, 255, 0x08⟩ ∧
      s.work.regs.pc = 3 ∧ 3 < 2 ^ s.cfg.width) := by
  decide

theorem witness_JzJumpsOnZeroAccumulator :
    (idle.HasOperand false 10 10 ∧ idle.work.regs.acc = 0 ∧ Stores idle.cfg 10 10 ∧ idle.engine = .running ∧
      idle.prog.length ≤ 10) ∧
    (let s := poised narrow.cfg noRegs noCells 0x00 0x01 0x00 0x09
     s.HasOperand false 256 256 ∧ s.work.regs.acc = 0 ∧ TooWide s.cfg 256) ∧
    (busy.HasOperand false 10 10 ∧ busy.work.regs.acc ≠ 0) := by
  decide

theorem witness_CallPushesReturnIndex :
    (busy.HasOperand false 3 3 ∧ busy.work.regs.asp < busy.cfg.astackSize ∧ Stores busy.cfg (busy.work.regs.pc + 1) 1 ∧
      Stores busy.cfg 3 3) ∧
    (full.HasOperand false 3 3 ∧ full.cfg.astackSize ≤ full.work.regs.asp) ∧
    (let s := poised narrow.cfg { noRegs with pc := 255 } noCells 0x00 0x00 0x03 0x0A
     s.HasOperand false 3 3 ∧ s.work.regs.asp < s.cfg.astackSize ∧ TooWide s.cfg (s.work.regs.pc + 1)) ∧
    (narrow.HasOperand false 256 256 ∧ narrow.work.regs.asp < narrow.cfg.astackSize ∧
      Stores narrow.cfg (narrow.work.regs.pc + 1) 1 ∧ TooWide narrow.cfg 256) := by
  decide

/-- The last clause of CallPushesReturnIndex: a call as the last instruction of a program of one. -/
theorem witness_CallPushesReturnIndex_last :
    let s : State := { busy with prog := [⟨false, 0, 0x0A⟩] }
    Memory.wf s.work.segs.addressStack = true ∧ s.work.regs.asp < s.cfg.astackSize ∧
      s.work.regs.pc + 1 < 2 ^ s.cfg.width ∧ s.engine = .running ∧ s.prog.length ≤ s.work.regs.pc + 1 ∧
      ∃ t, exec (.call false 0) s = .next t ∧ t.engine ≠ .faulted ∧ t.HasOperand false 0 0 :=
  ⟨by decide, by decide, by decide, rfl, by decide, _, rfl, by decide, by decide⟩

theorem witness_RetPopsReturnIndex :
    (busy.HasOperand false 0 0 ∧ busy.work.regs.asp ≠ 0) ∧ (idle.HasOperand false 0 0 ∧ idle.work.regs.asp = 0) ∧
    busy.work.Inv busy.cfg ∧ idle.work.Inv idle.cfg :=
  ⟨by decide, by decide, busy_work_inv, idle_work_inv⟩

theorem witness_InReadsPort :
    (busy.HasOperand false 3 3 ∧ 3 < busy.cfg.portsSize) ∧ (busy.HasOperand false 4 4 ∧ busy.cfg.portsSize ≤ 4) ∧
    busy.work.Inv busy.cfg :=
  ⟨by decide, by decide, busy_work_inv⟩

theorem witness_OutWritesPort :
    (busy.HasOperand false 3 3 ∧ 3 < busy.cfg.portsSize) ∧ (busy.HasOperand false 4 4 ∧ busy.cfg.portsSize ≤ 4) ∧
    busy.work.Inv busy.cfg :=
  ⟨by decide, by decide, busy_work_inv⟩

theorem witness_LdpLoadsPointer :
    (busy.HasOperand false 256 256 ∧ Stores busy.cfg 256 256) ∧ (narrow.HasOperand false 256 256 ∧ TooWide narrow.cfg 256) := by
  decide

theorem witness_LdiLoadsThroughPointer :
    (idle.HasOperand false 0 0 ∧ idle.work.regs.pr < idle.cfg.cacheSize) ∧
    (full.HasOperand false 0 0 ∧ full.cfg.cacheSize ≤ full.work.regs.pr) ∧
    idle.work.Inv idle.cfg ∧ full.work.Inv full.cfg :=
  ⟨by decide, by decide, idle_work_inv, full_work_inv⟩

theorem witness_StiStoresThroughPointer :
    (idle.HasOperand false 0 0 ∧ idle.work.regs.pr < idle.cfg.cacheSize) ∧
    (full.HasOperand false 0 0 ∧ full.cfg.cacheSize ≤ full.work.regs.pr) ∧
    idle.work.Inv idle.cfg ∧ full.work.Inv full.cfg :=
  ⟨by decide, by decide, idle_work_inv, full_work_inv⟩

theorem witness_PushaPushesAccumulator :
    (busy.HasOperand false 0 0 ∧ busy.work.regs.sp < busy.cfg.stackSize) ∧
    (full.HasOperand false 0 0 ∧ full.cfg.stackSize ≤ full.work.regs.sp) ∧
    busy.work.Inv busy.cfg ∧ full.work.Inv full.cfg :=
  ⟨by decide, by decide, busy_work_inv, full_work_inv⟩

theorem witness_CmpSetsFlagRegister :
    (busy.HasOperand false 3 3 ∧ 1 ≤ busy.cfg.width ∧ busy.work.regs.acc = 3) ∧
    (busy.HasOperand false 4 4 ∧ busy.work.regs.acc ≠ 4) ∧
    (narrow.HasOperand false 256 256 ∧ 1 ≤ narrow.cfg.width ∧ narrow.work.regs.acc < 2 ^ narrow.cfg.width ∧
      2 ^ narrow.cfg.width ≤ 256) := by
  decide

theorem witness_JfJumpsOnFlag :
    (busy.HasOperand false 8 8 ∧ busy.work.regs.fr ≠ 0 ∧ Stores busy.cfg 8 8 ∧ busy.engine = .running ∧
      busy.prog.length ≤ 8) ∧
    (narrow.HasOperand false 256 256 ∧ narrow.work.regs.fr ≠ 0 ∧ TooWide narrow.cfg 256) ∧
    (idle.HasOperand false 8 8 ∧ idle.work.regs.fr = 0) := by
  decide

theorem witness_UnassignedOpcodeFaults :
    0x14 ≤ (0x14 : Byte).toNat ∧ 0x14 ≤ (0xFF : Byte).toNat ∧ busy.HasOperand false 0 0 ∧ busy.OperandOutOfRange true 256 := by
  decide

theorem witness_DispatchFaultsOnUnknownOpcode :
    busy.HasOperand false 0 0 ∧ lookupOp busy.cfg.optable 0x14 = none := by
  decide

/-- A running instance of width 16 with a table of this one operation for opcode 0. -/
def tabled (op : Operation) (n : Nat) : State :=
  { State.fresh { reference with optable := .given [(0x00, op)] } with
    prog := List.replicate n ⟨false, 0, 0x00⟩, loaded := true, engine := .running }

/-- An operation that halts, one that sets `PC`, one that does neither before and at the end of the program, and the
empty one; each completes. -/
theorem witness_DispatchRunsTableOperation :
    let x : OpContext := { operand := 0, mf := false, value := 0 }
    let completes : Operation → Nat → (Work → Bool) → Prop := fun op n p =>
      lookupOp (tabled op n).cfg.optable 0x00 = some op ∧ (tabled op n).HasOperand false 0 0 ∧
        ∃ w, runOperation (tabled op n).cfg x op [] (tabled op n).workingCopy = .ok w ∧ p w = true
    completes (.act .halt .done) 1 (fun w => w.haltRequest) ∧
    completes (.act (.setPc (.nat (.lit 0))) .done) 1 (fun w => w.pcWritten && !w.haltRequest) ∧
    completes (.act (.push (.nat (.lit 1))) .done) 2 (fun w => !w.pcWritten && !w.haltRequest && decide (w.regs.pc + 1 < 2)) ∧
    completes (.act (.push (.nat (.lit 1))) .done) 1 (fun w => !w.pcWritten && !w.haltRequest && decide (1 ≤ w.regs.pc + 1)) ∧
    completes .done 1 (fun _ => true) :=
  ⟨⟨rfl, by decide, _, rfl, rfl⟩, ⟨rfl, by decide, _, rfl, rfl⟩, ⟨rfl, by decide, _, rfl, rfl⟩,
    ⟨rfl, by decide, _, rfl, rfl⟩, ⟨rfl, by decide, _, rfl, rfl⟩⟩

/-- The fault clause of DispatchRunsTableOperation: a pop that follows a port write, on an empty stack. -/
theorem witness_DispatchRunsTableOperation_fault :
    let op : Operation := .act (.portWrite (.lit 0) (.nat (.lit 1))) (.get .pop .done)
    lookupOp (tabled op 1).cfg.optable 0x00 = some op ∧ (tabled op 1).HasOperand false 0 0 ∧
      runOperation (tabled op 1).cfg { operand := 0, mf := false, value := 0 } op [] (tabled op 1).workingCopy =
        .error (.raise { kind := .stackUnderflow, seg := some (.segment .stack), index := 0 }) :=
  ⟨rfl, by decide, rfl⟩

theorem witness_RtAsDataTakesTheSameSteps : busy.cfg.optable = .rt := rfl

theorem witness_RegisterPrimitives :
    Stores narrow.cfg (evalInt [] (.nat (.lit 255))) 255 ∧ TooWide narrow.cfg (evalInt [] (.diff (.lit 0) (.lit 1))) ∧
    Stores clipped.cfg (evalInt [] (.diff (.lit 0) (.lit 1))) 255 := by
  decide

theorem witness_CachePrimitives :
    evalNat [] (.lit 255) < narrow.cfg.cacheSize ∧ narrow.cfg.cacheSize ≤ evalNat [] (.lit 256) ∧
    Stores narrow.cfg (evalInt [] (.nat (.lit 255))) 255 ∧ TooWide narrow.cfg (evalInt [] (.nat (.lit 256))) ∧
    Memory.wf narrow.work.segs.cache = true ∧
    ∃ t, runEffect narrow.cfg [] (.cacheWrite (.lit 255) (.nat (.lit 255))) narrow.work = .ok t :=
  ⟨by decide, by decide, by decide, by decide, by decide, _, rfl⟩

theorem witness_PortPrimitives :
    evalNat [] (.lit 3) < narrow.cfg.portsSize ∧ narrow.cfg.portsSize ≤ evalNat [] (.lit 4) ∧
    Stores narrow.cfg (evalInt [] (.nat (.lit 255))) 255 ∧ TooWide narrow.cfg (evalInt [] (.nat (.lit 256))) ∧
    Memory.wf narrow.work.segs.ports = true ∧
    ∃ t, runEffect narrow.cfg [] (.portWrite (.lit 3) (.nat (.lit 255))) narrow.work = .ok t :=
  ⟨by decide, by decide, by decide, by decide, by decide, _, rfl⟩

theorem witness_DataStackPrimitives :
    narrow.work.regs.sp < narrow.cfg.stackSize ∧ full.cfg.stackSize ≤ full.work.regs.sp ∧
    Stores narrow.cfg (evalInt [] (.nat (.lit 255))) 255 ∧ TooWide narrow.cfg (evalInt [] (.nat (.lit 256))) ∧
    narrow.work.regs.sp ≠ 0 ∧ idle.work.regs.sp = 0 ∧ Memory.wf narrow.work.segs.stack = true ∧
    ∃ t, runEffect narrow.cfg [] (.push (.nat (.lit 255))) narrow.work = .ok t :=
  ⟨by decide, by decide, by decide, by decide, by decide, by decide, by decide, _, rfl⟩

theorem witness_AddressStackPrimitives :
    busy.work.regs.asp < busy.cfg.astackSize ∧ full.cfg.astackSize ≤ full.work.regs.asp ∧
    Stores busy.cfg (evalInt [] (.nat (.lit 65535))) 65535 ∧ TooWide busy.cfg (evalInt [] (.nat (.lit 65536))) ∧
    busy.work.regs.asp ≠ 0 ∧ idle.work.regs.asp = 0 ∧ Memory.wf busy.work.segs.addressStack = true ∧
    ∃ t, runEffect busy.cfg [] (.apush (.nat (.lit 65535))) busy.work = .ok t :=
  ⟨by decide, by decide, by decide, by decide, by decide, by decide, by decide, _, rfl⟩

theorem witness_HaltAndContextPrimitives :
    (OpContext.mk 77 true 10).mf = true ∧ (OpContext.mk 10 false 10).mf = false := by
  decide

theorem witness_StepKeepsInvariant : busy.Inv ∧ ∃ t, Sys2Proof.Machine.step busy = .next t := ⟨busy_inv, _, rfl⟩

theorem witness_HostRunsKeepTheInvariant : construct Params.reference = some State.reset := by decide

theorem witness_StepAlwaysAnswersNextState : busy.cfg.wf = true := by decide

/-- A step that faults (a push on a full stack), and a load that does. -/
theorem witness_FaultsArePrecise :
    (full.engine = .running ∧ ∃ t, Sys2Proof.Machine.step full = .next t ∧ t.engine = .faulted) ∧
    ∃ t, State.reset.load [] = some t ∧ t.engine = .faulted :=
  ⟨⟨rfl, _, rfl, rfl⟩, _, rfl, rfl⟩

/-- A step under RT that changes a register, a segment and no more. -/
theorem witness_RtOpcodesThatChangeEachItem :
    busy.cfg.optable = .rt ∧ busy.engine = .running ∧ busy.fetch = some ⟨false, 5, 0x01⟩ ∧
      ∃ t, Sys2Proof.Machine.step busy = .next t ∧ ¬ busy.SameReg t .sp ∧ t.work.segs.stack ≠ busy.work.segs.stack :=
  ⟨rfl, rfl, rfl, _, rfl, by decide, by decide⟩

/-- Each frame statement's instructions answer a next state here, without faulting. -/
theorem witness_frames :
    ∀ i ∈ [Instr.lda false 5, .adda false 5, .suba false 3, .inPort false 2, .ldi false 0, .ldp false 5, .cmp false 3,
        .halt false 0, .jmp false 0, .jz false 0, .jf false 0, .sta false 0, .sti false 0, .outPort false 0, .push false 5,
        .pusha false 0, .add false 0, .pop false 0, .call false 0, .ret false 0],
      after State.fault { busy with prog := [i.toTriple] } = some none := by
  decide

theorem witness_frames_next :
    (∃ t, exec (.lda false 5) busy = .next t) ∧ (∃ t, exec (.unassigned false 0 0x14) busy = .next t) ∧
    (∃ t, exec (.sta false 255) busy = .next t) ∧ (∃ t, exec (.outPort false 3) busy = .next t) ∧
    (∃ t, exec (.push false 5) busy = .next t) ∧ (∃ t, exec (.call false 0) busy = .next t) :=
  ⟨⟨_, rfl⟩, ⟨_, rfl⟩, ⟨_, rfl⟩, ⟨_, rfl⟩, ⟨_, rfl⟩, ⟨_, rfl⟩⟩

theorem witness_StepKeepsProgramAndExtendsLog : ∃ t, Sys2Proof.Machine.step busy = .next t := ⟨_, rfl⟩

/-- As many pushes as fit above `SP = 2` in four cells. -/
theorem witness_StackRoundTrip :
    busy.work.Inv busy.cfg ∧ busy.work.regs.sp + [0, 65535].length ≤ busy.cfg.stackSize ∧
      ∀ v ∈ [0, 65535], v < 2 ^ busy.cfg.width :=
  ⟨busy_work_inv, by decide, by decide⟩

theorem witness_DataStackNeverReachesControl :
    Instr.call false 0 ∈ [Instr.jmp false 0, .jz false 0, .jf false 0, .call false 0, .ret false 0] := by
  decide

theorem witness_InReadsWhatTheHostWrote :
    busy.Inv ∧ busy.HasOperand false 3 3 ∧ ∃ t, busy.hostPortWrite 3 65535 = some t :=
  ⟨busy_inv, by decide, _, rfl⟩

end Sys2Proof.Tests
end

/-! # The invariant of every core (10_state.md R44)

Each primitive keeps `Work.Inv`, so every operation does; commit, fault entry and the host's actions keep `State.Inv`;
and a step of a core with admitted parameters always answers a next state. -/

namespace Sys2Proof.Machine

section

variable {c : Params} {x : OpContext} {env : List Nat} {w w' : Work} {s t : State} {v : Int} {a n p : Nat}

/-! ## The construction parameters -/

theorem Params.wf_iff {q : Params} : q.wf = true ↔
    1 ≤ q.width ∧ q.stackSize ≤ 2 ^ q.width - 1 ∧ q.astackSize ≤ 2 ^ q.width - 1 ∧ q.optable.wf = true := by
  simp [Params.wf, and_assoc]

/-- A full data stack's cursor fits the width (70_reset_and_hazards.md R181). -/
theorem Params.stackSize_lt_of_wf {q : Params} (h : q.wf = true) : q.stackSize < 2 ^ q.width := by
  obtain ⟨-, hs, -, -⟩ := Params.wf_iff.1 h
  have := Nat.two_pow_pos q.width
  omega

/-- A full address stack's cursor fits the width (70_reset_and_hazards.md R181). -/
theorem Params.astackSize_lt_of_wf {q : Params} (h : q.wf = true) : q.astackSize < 2 ^ q.width := by
  obtain ⟨-, -, hs, -⟩ := Params.wf_iff.1 h
  have := Nat.two_pow_pos q.width
  omega

theorem construct_eq_some {q : Params} : construct q = some s ↔ q.wf = true ∧ s = State.fresh q := by
  unfold construct
  by_cases h : q.wf = true <;> simp [h, eq_comm]

/-- Every cell of a constructed core reads as 0 (10_state.md R39). -/
theorem fresh_read (q : Params) (g : Segment) (a : Nat) : (State.fresh q).work.segs.read g a = 0 := by
  cases g <;> rfl

/-! ## Every primitive keeps `Work.Inv` -/

theorem RegFile.Fits.set {f : RegFile} {W u : Nat} (h : f.Fits W) (hu : u < 2 ^ W) (r : Reg) : (f.set r u).Fits W := by
  obtain ⟨hacc, hpr, hpc, hfr, hsp, hasp⟩ := h
  cases r <;> simp [RegFile.Fits, hacc, hpr, hpc, hfr, hsp, hasp, hu]

/-- A write of a register that is no cursor (41_core_primitives.md R120, R121). -/
theorem Work.Inv.storeReg {r : Reg} (h : w.Inv c) (hsp : r ≠ .sp) (hasp : r ≠ .asp) (e : storeReg c r v w = .ok w') :
    w'.Inv c := by
  obtain ⟨u, hu, rfl⟩ := storeReg_eq_ok.1 e
  have hfit := h.regsFit.set (lt_of_stores hu) r
  cases r with
  | acc | pr | pc | fr => exact { h with regsFit := hfit }
  | sp => exact absurd rfl hsp
  | asp => exact absurd rfl hasp

theorem Work.Inv.setPc (h : w.Inv c) (e : setPc c v w = .ok w') : w'.Inv c := by
  obtain ⟨u, hu, rfl⟩ := setPc_eq_ok.1 e
  exact { h with regsFit := h.regsFit.set (lt_of_stores hu) .pc }

theorem Work.Inv.regWrite {r : Reg} (h : w.Inv c) (e : regWrite c r v w = .ok w') : w'.Inv c := by
  cases r with
  | acc | pr | fr => exact h.storeReg (by decide) (by decide) e
  | pc => exact h.setPc e
  | sp | asp => cases e

theorem Work.Inv.cacheWrite (h : w.Inv c) (e : cacheWrite c a v w = .ok w') : w'.Inv c := by
  obtain ⟨ha, u, hu, rfl⟩ := cacheWrite_eq_ok.1 e
  exact { h with cache := h.cache.write ha (lt_of_stores hu) }

theorem Work.Inv.portWrite (h : w.Inv c) (e : portWrite c p v w = .ok w') : w'.Inv c := by
  obtain ⟨hp, u, hu, rfl⟩ := portWrite_eq_ok.1 e
  refine { h with ports := h.ports.write hp (lt_of_stores hu), outRange := fun ev hev => ?_ }
  rcases List.mem_append.1 hev with hev | hev
  · exact h.outRange ev hev
  · obtain rfl := List.mem_singleton.1 hev
    exact ⟨hp, lt_of_stores hu⟩

/-- `SP` after a push is at most `STACK_SIZE`, which fits the width. -/
theorem Work.Inv.push (hc : c.wf = true) (h : w.Inv c) (e : push c v w = .ok w') : w'.Inv c := by
  obtain ⟨hsp, u, hu, rfl⟩ := push_eq_ok.1 e
  have hlt := Params.stackSize_lt_of_wf hc
  exact { h with
    regsFit := h.regsFit.set (u := w.regs.sp + 1) (by omega) .sp
    spBound := hsp
    stack := h.stack.write hsp (lt_of_stores hu) }

/-- `ASP` after a push is at most `ASTACK_SIZE`, which fits the width. -/
theorem Work.Inv.apush (hc : c.wf = true) (h : w.Inv c) (e : apush c v w = .ok w') : w'.Inv c := by
  obtain ⟨hasp, u, hu, rfl⟩ := apush_eq_ok.1 e
  have hlt := Params.astackSize_lt_of_wf hc
  exact { h with
    regsFit := h.regsFit.set (u := w.regs.asp + 1) (by omega) .asp
    aspBound := hasp
    astack := h.astack.write hasp (lt_of_stores hu) }

theorem Work.Inv.pop {q : Nat × Work} (h : w.Inv c) (e : pop w = .ok q) : q.2.Inv c := by
  obtain ⟨-, rfl⟩ := pop_eq_ok.1 e
  obtain ⟨-, -, -, -, hfit, -⟩ := h.regsFit
  exact { h with
    regsFit := h.regsFit.set (u := w.regs.sp - 1) (by omega) .sp
    spBound := (Nat.sub_le _ _).trans h.spBound }

theorem Work.Inv.apop {q : Nat × Work} (h : w.Inv c) (e : apop w = .ok q) : q.2.Inv c := by
  obtain ⟨-, rfl⟩ := apop_eq_ok.1 e
  obtain ⟨-, -, -, -, -, hfit⟩ := h.regsFit
  exact { h with
    regsFit := h.regsFit.set (u := w.regs.asp - 1) (by omega) .asp
    aspBound := (Nat.sub_le _ _).trans h.aspBound }

/-! ## Every operation keeps `Work.Inv` -/

/-- Of the primitives that return a value only the two pops change the working copy. -/
theorem runQuery_work_eq {q : Query} {r : Nat × Work} (e : runQuery c x env q w = .ok r) :
    r.2 = w ∨ pop w = .ok r ∨ apop w = .ok r := by
  cases q with
  | regRead | operand | memoryFlag | value => cases e; exact .inl rfl
  | cacheRead a => simp only [runQuery] at e; split at e <;> cases e; exact .inl rfl
  | portRead a => simp only [runQuery] at e; split at e <;> cases e; exact .inl rfl
  | pop => exact .inr (.inl e)
  | apop => exact .inr (.inr e)

theorem Work.Inv.runQuery {q : Query} {r : Nat × Work} (h : w.Inv c) (e : runQuery c x env q w = .ok r) :
    r.2.Inv c := by
  rcases runQuery_work_eq e with hw | hp | hp
  · rwa [hw]
  · exact h.pop hp
  · exact h.apop hp

theorem Work.Inv.runEffect {f : Effect} (hc : c.wf = true) (h : w.Inv c) (e : runEffect c env f w = .ok w') :
    w'.Inv c := by
  cases f with
  | regWrite r v => exact h.regWrite e
  | setPc v => exact h.setPc e
  | cacheWrite a v => exact h.cacheWrite e
  | portWrite p v => exact h.portWrite e
  | push v => exact h.push hc e
  | apush v => exact h.apush hc e
  | halt => cases e; exact { h with }

/-- Every operation keeps the bounds of 10_state.md R44, whatever it was given to start with. -/
theorem Work.Inv.runOperation {op : Operation} (hc : c.wf = true) (h : w.Inv c)
    (e : runOperation c x op env w = .ok w') : w'.Inv c :=
  runOperation_keeps op (fun _ _ _ _ hw hq => hw.runQuery hq) (fun _ _ _ _ hw he => hw.runEffect hc he) h e

/-- The latches and the waiting events take no part in the bounds but for the events' own range. -/
theorem Work.Inv.clearLatches (h : w.Inv c) : Work.Inv c { w with pcWritten := false, haltRequest := false, out := [] } :=
  { h with outRange := fun _ he => absurd he List.not_mem_nil }

/-! ## What a commit leaves -/

@[simp] theorem State.commit_cfg (s : State) (w : Work) : (s.commit w).cfg = s.cfg := by
  unfold State.commit; split_ifs <;> rfl

@[simp] theorem State.commit_prog (s : State) (w : Work) : (s.commit w).prog = s.prog := by
  unfold State.commit; split_ifs <;> rfl

@[simp] theorem State.commit_loaded (s : State) (w : Work) : (s.commit w).loaded = s.loaded := by
  unfold State.commit; split_ifs <;> rfl

@[simp] theorem State.commit_fault (s : State) (w : Work) : (s.commit w).fault = s.fault := by
  unfold State.commit; split_ifs <;> rfl

@[simp] theorem State.commit_outLog (s : State) (w : Work) : (s.commit w).outLog = s.outLog ++ w.out := by
  unfold State.commit; split_ifs <;> rfl

/-- A commit halts the engine or lets it run on (40_engine_cycle.md R109). -/
theorem State.commit_engine (s : State) (w : Work) :
    (s.commit w).engine = s.engine ∨ (s.commit w).engine = .halted := by
  unfold State.commit; split_ifs <;> simp

/-- The working copy is committed with the latches clear, and with `PC` advanced only where an instruction stands at
the next index (40_engine_cycle.md R109, R111). -/
theorem State.commit_work (s : State) (w : Work) :
    (s.commit w).work = { w with pcWritten := false, haltRequest := false, out := [] } ∨
      w.regs.pc + 1 < s.prog.length ∧
        (s.commit w).work =
          { w with regs := w.regs.set .pc (w.regs.pc + 1), pcWritten := false, haltRequest := false, out := [] } := by
  unfold State.commit
  split_ifs with _ _ hpc
  · exact .inl rfl
  · exact .inl rfl
  · exact .inr ⟨hpc, rfl⟩
  · exact .inl rfl

/-! ## The step keeps `State.Inv` -/

/-- `PC` advances only below `N`, and `N` is at most 2^W (00_scope.md R10). -/
theorem Work.Inv.commit (hw : w.Inv s.cfg) (hN : s.prog.length ≤ 2 ^ s.cfg.width) : (s.commit w).work.Inv s.cfg := by
  rcases s.commit_work w with e | ⟨hpc, e⟩ <;> rw [e]
  · exact hw.clearLatches
  · exact { hw.clearLatches with regsFit := hw.regsFit.set (u := w.regs.pc + 1) (by omega) .pc }

theorem State.commit_latches (s : State) (w : Work) :
    (s.commit w).work.pcWritten = false ∧ (s.commit w).work.haltRequest = false ∧ (s.commit w).work.out = [] := by
  rcases s.commit_work w with e | ⟨-, e⟩ <;> simp [e]

theorem State.Inv.fault_eq_none (h : s.Inv) (he : s.engine ≠ .faulted) : s.fault = none := by
  by_contra hf
  exact he (h.faultIff.1 (Option.isSome_iff_ne_none.2 hf))

theorem State.Inv.commit (h : s.Inv) (hr : s.engine = .running) (hw : w.Inv s.cfg) : (s.commit w).Inv where
  params := by simpa using h.params
  work := by simpa using hw.commit h.progFits
  latches := s.commit_latches w
  progFits := by simpa using h.progFits
  progLoaded := by simpa using h.progLoaded
  faultIff := by
    have hf : s.fault = none := h.fault_eq_none (by simp [hr])
    rcases s.commit_engine w with e | e <;> simp [e, hf, hr]
  faultCode := by simpa using h.faultCode
  logRange := by
    intro ev hev
    rw [State.commit_outLog] at hev
    rw [State.commit_cfg]
    rcases List.mem_append.1 hev with hev | hev
    · exact h.logRange ev hev
    · exact hw.outRange ev hev

theorem State.Inv.enterFault (h : s.Inv) (pc : Option Nat) (f : FaultInfo) : (s.enterFault pc f).Inv :=
  { h with
    faultIff := by simp
    faultCode := by simp }

theorem State.Inv.step (h : s.Inv) (e : step s = .next t) : t.Inv := by
  rcases step_cases e with ⟨-, rfl⟩ | ⟨-, f, rfl⟩ | ⟨hr, op, x, w, hw, rfl⟩
  · exact h
  · exact h.enterFault _ f
  · exact h.commit hr (h.work.clearLatches.runOperation h.params hw)

/-! ## A step of a core with admitted parameters answers a next state -/

theorem mem_of_findEntry {es : List (Byte × Operation)} {o : Byte} {op : Operation} (h : findEntry es o = some op) :
    (o, op) ∈ es := by
  induction es with
  | nil => cases h
  | cons e es ih =>
    simp only [findEntry] at h
    split at h
    · next he => cases h; subst he; exact List.mem_cons_self
    · exact List.mem_cons_of_mem _ (ih h)

/-- RT is a well-formed table (42_reference_ops.md R135). -/
theorem rtEntries_admitted : ∀ e ∈ rtEntries, e.2.admitted 0 = true := by decide

theorem admitted_of_lookupOp {T : OpTable} {o : Byte} {op : Operation} (hT : T.wf = true) (h : lookupOp T o = some op) :
    op.admitted 0 = true := by
  cases T with
  | rt => exact rtEntries_admitted _ (mem_of_findEntry h)
  | given es => exact List.all_eq_true.1 hT _ (mem_of_findEntry h)

theorem dispatched_eq_ok {T : OpTable} {o : Byte} {op : Operation} :
    dispatched T o = .ok op ↔ lookupOp T o = some op := by
  unfold dispatched
  split <;> simp_all

theorem eq_ofNat_of_toNat {o : Byte} {k : Nat} (h : o.toNat = k) : o = BitVec.ofNat 8 k := by
  simp [← h]

/-- RT's rows are the entries of RT as a table: each row's meaning runs the operation found under its opcode
(42_reference_ops.md R136, R157). -/
theorem exec_ofRt (i : Triple) (s : State) :
    exec (Instr.ofRt i) s = s.execute (dispatched .rt i.opcode) i.mf i.value := by
  obtain ⟨mf, value, o⟩ := i
  simp only [Instr.ofRt]
  split
  case h_21 =>
    have hnone : findEntry rtEntries o = none := by
      simp_all [rtEntries, findEntry, ← BitVec.toNat_inj, eq_comm]
    simp [exec_unassigned, dispatched, lookupOp, hnone]
  all_goals
    next ho =>
      obtain rfl := eq_ofNat_of_toNat ho
      rfl

/-- What the decoder names a group is, under every table, the operation found under its opcode. -/
theorem exec_ofTriple (i : Triple) (s : State) :
    exec (Instr.ofTriple s.cfg.optable i) s = s.execute (dispatched s.cfg.optable i.opcode) i.mf i.value := by
  cases hT : s.cfg.optable with
  | rt => exact exec_ofRt i s
  | given es => rw [← hT]; simp [Instr.ofTriple, hT, exec_dispatch]

theorem execute_answers {found : Except FaultInfo Operation} (mf : Bool) (value : Half)
    (h : ∀ op, found = .ok op → op.admitted 0 = true) : ∃ t, s.execute found mf value = .next t := by
  cases hres : s.resolve mf value with
  | error f => exact ⟨_, execute_operand_fault (resolve_eq_error.1 hres).1⟩
  | ok n =>
    have hn := resolve_eq_ok.1 hres
    cases found with
    | error f => exact ⟨_, execute_dispatch_fault hn⟩
    | ok op =>
      cases hr : runOperation s.cfg ⟨n, mf, value.toNat⟩ op [] s.workingCopy with
      | ok w => exact ⟨_, execute_ok hn hr⟩
      | error a =>
        cases a with
        | raise f => exact ⟨_, execute_fault hn hr⟩
        | cursorWrite r => exact absurd hr (runOperation_ne_cursorWrite op (h op rfl))

/-- The model's own stop is never reached under admitted parameters (41_core_primitives.md R121). -/
theorem step_answers (hc : s.cfg.wf = true) : ∃ t, step s = .next t := by
  by_cases hr : s.engine = .running
  · cases hf : s.fetch with
    | none => exact ⟨_, step_of_no_fetch hr hf⟩
    | some i =>
      obtain ⟨-, -, -, hT⟩ := Params.wf_iff.1 hc
      rw [step_of_fetch hr hf, exec_ofTriple]
      exact execute_answers _ _ fun op hop => admitted_of_lookupOp hT (dispatched_eq_ok.1 hop)
  · exact ⟨_, step_of_not_running hr⟩

/-! ## The host's actions keep `State.Inv` -/

theorem fresh_inv {q : Params} (hq : q.wf = true) : (State.fresh q).Inv := by
  have hpos := Nat.two_pow_pos q.width
  exact
    { params := hq
      work :=
        { regsFit := ⟨hpos, hpos, hpos, hpos, hpos, hpos⟩
          spBound := Nat.zero_le _
          aspBound := Nat.zero_le _
          cache := ⟨rfl, rfl⟩
          stack := ⟨rfl, rfl⟩
          astack := ⟨rfl, rfl⟩
          ports := ⟨rfl, rfl⟩
          outRange := fun _ he => absurd he List.not_mem_nil }
      latches := ⟨rfl, rfl, rfl⟩
      progFits := Nat.zero_le _
      progLoaded := fun _ => rfl
      faultIff := by simp [State.fresh]
      faultCode := by simp [State.fresh]
      logRange := fun _ he => absurd he List.not_mem_nil }

/-- A parsed program has at most 2^W instructions (30_encoding.md R82). -/
theorem length_le_of_parseImage {W : Nat} {image : List Byte} {prog : List Triple}
    (h : parseImage W image = .ok prog) : prog.length ≤ 2 ^ W := by
  unfold parseImage at h
  split at h
  · cases h
  · split_ifs at h with _ _ hlen
    cases h
    exact Nat.not_lt.1 hlen

theorem State.Inv.load {image : List Byte} (h : s.Inv) (e : s.load image = some t) : t.Inv := by
  unfold State.load at e
  split at e
  · split at e <;> cases e
    · exact h.enterFault _ _
    · next prog hp =>
      exact { h with
        progFits := length_le_of_parseImage hp
        progLoaded := fun hl => by cases hl }
  · cases e

theorem State.Inv.start (h : s.Inv) : s.start.Inv := by
  unfold State.start
  split
  · next hr =>
    have hf : s.fault = none := h.fault_eq_none (by simp [hr])
    exact { h with faultIff := by simp [hf] }
  · exact h

theorem State.Inv.hostPortWrite {i u : Nat} (h : s.Inv) (e : s.hostPortWrite i u = some t) : t.Inv := by
  unfold State.hostPortWrite at e
  split at e <;> cases e
  next hi =>
  exact { h with work := { h.work with ports := h.work.ports.write (inBounds_iff.1 hi.1) hi.2 } }

/-- An action the interface refuses leaves the core as it was. -/
theorem State.Inv.getD {o : Option State} (h : s.Inv) (ho : ∀ u, o = some u → u.Inv) : (o.getD s).Inv := by
  cases o with
  | none => exact h
  | some u => exact ho u rfl

theorem State.Inv.hostAct (h : s.Inv) (act : HostAction) : ∃ t, hostAct act s = .next t ∧ t.Inv := by
  cases act with
  | load image => exact ⟨_, rfl, h.getD fun _ e => h.load e⟩
  | start => exact ⟨_, rfl, h.start⟩
  | step =>
    obtain ⟨t, ht⟩ := step_answers h.params
    exact ⟨t, ht, h.step ht⟩
  | portWrite i u => exact ⟨_, rfl, h.getD fun _ e => h.hostPortWrite e⟩

theorem runActions_cons {act : HostAction} {acts : List HostAction} (h : hostAct act s = .next t) :
    runActions (act :: acts) s = runActions acts t := by
  simp [runActions, h]

/-- Every run from a state with the invariant goes on and keeps it. -/
theorem State.Inv.runActions (h : s.Inv) (acts : List HostAction) : ∃ t, runActions acts s = .next t ∧ t.Inv := by
  induction acts generalizing s with
  | nil => exact ⟨s, rfl, h⟩
  | cons act acts ih =>
    obtain ⟨u, hu, hinv⟩ := h.hostAct act
    rw [runActions_cons hu]
    exact ih hinv

end

end Sys2Proof.Machine

section

open Sys2Proof Sys2Proof.Machine

/-- Settles O47: a step changes nothing, enters a fault, or commits the working copy of an operation, and every
primitive keeps that copy's invariant. -/
theorem stepKeepsInvariant : Obligations.StepKeepsInvariant :=
  fun _ _ h e => h.step e

/-- Settles O48, by induction on the host's actions from the reset state. -/
theorem hostRunsKeepTheInvariant : Obligations.HostRunsKeepTheInvariant := by
  intro p s acts h
  obtain ⟨hp, rfl⟩ := construct_eq_some.1 h
  exact (fresh_inv hp).runActions acts

/-- Settles O56: a fault leaves the log alone, and a commit appends the step's own events. -/
theorem stepKeepsProgramAndExtendsLog : Obligations.StepKeepsProgramAndExtendsLog := by
  intro s t e
  rcases step_cases e with ⟨-, rfl⟩ | ⟨-, f, rfl⟩ | ⟨-, op, x, w, -, rfl⟩
  · exact ⟨⟨rfl, rfl, rfl⟩, [], by simp⟩
  · exact ⟨⟨rfl, rfl, rfl⟩, [], by simp⟩
  · exact ⟨⟨s.commit_cfg w, s.commit_prog w, s.commit_loaded w⟩, w.out, s.commit_outLog w⟩

/-- Settles O1: `construct` answers the fresh state of its parameters. -/
theorem constructGivesResetState : Obligations.ConstructGivesResetState := by
  intro p s h
  obtain ⟨-, rfl⟩ := construct_eq_some.1 h
  exact ⟨rfl, rfl, rfl, rfl, rfl, rfl, fresh_read p, rfl, rfl, rfl⟩

end

/-! # The data stack: as many pops undo pushes (20_memory.md R60), and control never reaches it (R52) -/

namespace Sys2Proof.Machine

/-- The working copy with another content of the data stack and another `SP`, as `State.withDataStack` sets them. -/
def Work.withDataStack (w : Work) (m : Memory) (sp : Nat) : Work :=
  { w with regs := { w.regs with sp := sp }, segs := { w.segs with stack := m } }

section

variable {c : Params} {w w' : Work} {m : Memory} {sp : Nat}

@[simp] theorem Work.withDataStack_sp : (w.withDataStack m sp).regs.sp = sp := rfl

@[simp] theorem Work.withDataStack_stack : (w.withDataStack m sp).segs.stack = m := rfl

@[simp] theorem Work.withDataStack_withDataStack (m' : Memory) (sp' : Nat) :
    (w.withDataStack m sp).withDataStack m' sp' = w.withDataStack m' sp' := rfl

/-! ## Pushes and as many pops -/

/-- A push of a value that fits, below the capacity (20_memory.md R55). -/
theorem push_eq_withDataStack {u : Nat} (hsp : w.regs.sp < c.stackSize) (hu : u < 2 ^ c.width) :
    push c u w = .ok (w.withDataStack (Memory.write w.segs.stack w.regs.sp u) (w.regs.sp + 1)) :=
  push_eq_ok.2 ⟨hsp, u, stores_self hu, rfl⟩

/-- A pop moves `SP` alone (20_memory.md R56, R59). -/
theorem pop_withDataStack_succ :
    pop (w.withDataStack m (sp + 1)) = .ok (Memory.read m sp, w.withDataStack m sp) :=
  pop_eq_ok.2 ⟨Nat.succ_ne_zero sp, rfl⟩

theorem pushAll_cons {u : Nat} {vs : List Nat} (h : push c u w = .ok w') :
    pushAll c (u :: vs) w = pushAll c vs w' := by
  simp [pushAll, h]

/-- `popAll` peels off the first pop; this peels off the last. -/
theorem popAll_succ {n u : Nat} {vs : List Nat} {w1 w2 : Work} (h : popAll n w = .ok (vs, w1))
    (hu : pop w1 = .ok (u, w2)) : popAll (n + 1) w = .ok (vs ++ [u], w2) := by
  induction n generalizing w vs with
  | zero => cases h; simp [popAll, hu]
  | succ n ih =>
    rw [popAll] at h
    split at h
    · cases h
    · next q hq =>
      split at h
      · cases h
      · next r hr => cases h; rw [popAll, hq]; simp [ih hr]

/-- Pushes write no cell below the `SP` they start from, so what was pushed before them is popped after them. -/
theorem popAll_pushAll {vs : List Nat} (hwf : Memory.wf w.segs.stack = true)
    (hsp : w.regs.sp + vs.length ≤ c.stackSize) (hvs : ∀ u ∈ vs, u < 2 ^ c.width) :
    ∃ m, pushAll c vs w = .ok (w.withDataStack m (w.regs.sp + vs.length)) ∧
      (∀ b < w.regs.sp, Memory.read m b = Memory.read w.segs.stack b) ∧
      popAll vs.length (w.withDataStack m (w.regs.sp + vs.length)) =
        .ok (vs.reverse, w.withDataStack m w.regs.sp) := by
  induction vs generalizing w with
  | nil => exact ⟨w.segs.stack, rfl, fun _ _ => rfl, rfl⟩
  | cons u vs ih =>
    obtain ⟨hu, hvs⟩ := List.forall_mem_cons.1 hvs
    rw [List.length_cons, Nat.add_comm _ 1, ← Nat.add_assoc] at hsp ⊢
    obtain ⟨m, hpush, hbelow, hpop⟩ :=
      ih (w := w.withDataStack (Memory.write w.segs.stack w.regs.sp u) (w.regs.sp + 1)) (Memory.wf_write hwf) hsp hvs
    simp only [Work.withDataStack_sp, Work.withDataStack_stack, Work.withDataStack_withDataStack] at hpush hbelow hpop
    have htop : Memory.read m w.regs.sp = u := by
      rw [hbelow _ (Nat.lt_succ_self _), Memory.read_write_self hwf]
    refine ⟨m, ?_, fun b hb => ?_, ?_⟩
    · rw [pushAll_cons (push_eq_withDataStack (by omega) hu), hpush]
    · rw [hbelow b (by omega), Memory.read_write_of_ne (by omega)]
    · rw [Nat.add_comm 1, List.reverse_cons, popAll_succ hpop pop_withDataStack_succ, htop]

end

end Sys2Proof.Machine

/-! ## Primitives and operations that leave the data stack out -/

namespace Sys2Proof

/-- The primitive neither pops the data stack nor reads `SP`. -/
def Query.avoidsDataStack : Query → Bool
  | .regRead r => decide (r ≠ .sp)
  | .pop => false
  | _ => true

/-- The primitive is no push on the data stack. No `REG_WRITE` needs excluding: none writes `SP`
(41_core_primitives.md R121). -/
def Effect.avoidsDataStack : Effect → Bool
  | .push _ => false
  | _ => true

/-- Every primitive of the operation leaves the data stack and `SP` out. -/
def Operation.avoidsDataStack : Operation → Bool
  | .done => true
  | .get q k => q.avoidsDataStack && k.avoidsDataStack
  | .act e k => e.avoidsDataStack && k.avoidsDataStack
  | .ite _ k l => k.avoidsDataStack && l.avoidsDataStack

end Sys2Proof

namespace Sys2Proof.Machine

section

variable {c : Params} {x : OpContext} {env : List Nat} {w : Work} {s : State} {m : Memory} {v : Int} {a p sp : Nat}

/-! ## Every such primitive does the same whatever the data stack and `SP` hold -/

@[simp] theorem cacheRead_withDataStack : cacheRead c a (w.withDataStack m sp) = cacheRead c a w := rfl

@[simp] theorem portRead_withDataStack : portRead c p (w.withDataStack m sp) = portRead c p w := rfl

theorem apop_withDataStack :
    apop (w.withDataStack m sp) = (apop w).map fun q => (q.1, q.2.withDataStack m sp) := by
  cases h : apop w with
  | error e => exact apop_eq_error.2 ((apop_eq_error (w := w)).1 h)
  | ok q =>
    obtain ⟨hasp, rfl⟩ := apop_eq_ok.1 h
    exact apop_eq_ok.2 ⟨hasp, rfl⟩

theorem storeReg_withDataStack {r : Reg} (hr : r ≠ .sp) :
    storeReg c r v (w.withDataStack m sp) = (storeReg c r v w).map (·.withDataStack m sp) := by
  cases h : storeReg c r v w with
  | error e => exact storeReg_eq_error.2 (storeReg_eq_error.1 h)
  | ok w' =>
    obtain ⟨u, hu, rfl⟩ := storeReg_eq_ok.1 h
    refine storeReg_eq_ok.2 ⟨u, hu, ?_⟩
    cases r with
    | sp => exact absurd rfl hr
    | acc | pr | pc | fr | asp => rfl

theorem setPc_withDataStack :
    setPc c v (w.withDataStack m sp) = (setPc c v w).map (·.withDataStack m sp) := by
  cases h : setPc c v w with
  | error e => exact setPc_eq_error.2 (setPc_eq_error.1 h)
  | ok w' =>
    obtain ⟨u, hu, rfl⟩ := setPc_eq_ok.1 h
    exact setPc_eq_ok.2 ⟨u, hu, rfl⟩

theorem regWrite_withDataStack (r : Reg) :
    regWrite c r v (w.withDataStack m sp) = (regWrite c r v w).map (·.withDataStack m sp) := by
  cases r with
  | acc | pr | fr => exact storeReg_withDataStack (by decide)
  | pc => exact setPc_withDataStack
  | sp | asp => rfl

theorem cacheWrite_withDataStack :
    cacheWrite c a v (w.withDataStack m sp) = (cacheWrite c a v w).map (·.withDataStack m sp) := by
  cases h : cacheWrite c a v w with
  | error e => exact cacheWrite_eq_error.2 (cacheWrite_eq_error.1 h)
  | ok w' =>
    obtain ⟨ha, u, hu, rfl⟩ := cacheWrite_eq_ok.1 h
    exact cacheWrite_eq_ok.2 ⟨ha, u, hu, rfl⟩

theorem portWrite_withDataStack :
    portWrite c p v (w.withDataStack m sp) = (portWrite c p v w).map (·.withDataStack m sp) := by
  cases h : portWrite c p v w with
  | error e => exact portWrite_eq_error.2 (portWrite_eq_error.1 h)
  | ok w' =>
    obtain ⟨hp, u, hu, rfl⟩ := portWrite_eq_ok.1 h
    exact portWrite_eq_ok.2 ⟨hp, u, hu, rfl⟩

theorem apush_withDataStack :
    apush c v (w.withDataStack m sp) = (apush c v w).map (·.withDataStack m sp) := by
  cases h : apush c v w with
  | error e => exact apush_eq_error.2 ((apush_eq_error (w := w)).1 h)
  | ok w' =>
    obtain ⟨hasp, u, hu, rfl⟩ := apush_eq_ok.1 h
    exact apush_eq_ok.2 ⟨hasp, u, hu, rfl⟩

theorem runQuery_withDataStack {q : Query} (hq : q.avoidsDataStack = true) :
    runQuery c x env q (w.withDataStack m sp) =
      (runQuery c x env q w).map fun r => (r.1, r.2.withDataStack m sp) := by
  cases q with
  | regRead r =>
    cases r with
    | sp => cases hq
    | acc | pr | pc | fr | asp => rfl
  | cacheRead b => simp only [runQuery, cacheRead_withDataStack]; cases cacheRead c (evalNat env b) w <;> rfl
  | portRead b => simp only [runQuery, portRead_withDataStack]; cases portRead c (evalNat env b) w <;> rfl
  | pop => cases hq
  | apop => exact apop_withDataStack
  | operand | memoryFlag | value => rfl

theorem runEffect_withDataStack {e : Effect} (he : e.avoidsDataStack = true) :
    runEffect c env e (w.withDataStack m sp) = (runEffect c env e w).map (·.withDataStack m sp) := by
  cases e with
  | regWrite r _ => exact regWrite_withDataStack r
  | setPc _ => exact setPc_withDataStack
  | cacheWrite _ _ => exact cacheWrite_withDataStack
  | portWrite _ _ => exact portWrite_withDataStack
  | push _ => cases he
  | apush _ => exact apush_withDataStack
  | halt => rfl

/-! ## So does every operation made of them, and the instruction that runs it -/

theorem runOperation_withDataStack {op : Operation} (hop : op.avoidsDataStack = true) :
    runOperation c x op env (w.withDataStack m sp) = (runOperation c x op env w).map (·.withDataStack m sp) := by
  induction op generalizing env w with
  | done => rfl
  | get q k ih =>
    obtain ⟨hq, hk⟩ := Bool.and_eq_true_iff.1 hop
    simp only [runOperation, runQuery_withDataStack hq]
    cases runQuery c x env q w with
    | error e => rfl
    | ok r => exact ih hk
  | act e k ih =>
    obtain ⟨he, hk⟩ := Bool.and_eq_true_iff.1 hop
    simp only [runOperation, runEffect_withDataStack he]
    cases runEffect c env e w with
    | error a => rfl
    | ok w' => exact ih hk
  | ite b k l ihk ihl =>
    obtain ⟨hk, hl⟩ := Bool.and_eq_true_iff.1 hop
    simp only [runOperation_ite]
    split
    · exact ihk hk
    · exact ihl hl

theorem commit_withDataStack :
    (s.withDataStack m sp).commit (w.withDataStack m sp) = (s.commit w).withDataStack m sp := by
  cases hh : w.haltRequest with
  | true => rw [commit_halted hh, commit_halted (w := w.withDataStack m sp) hh]; rfl
  | false =>
    cases hp : w.pcWritten with
    | true => rw [commit_jumped hh hp, commit_jumped (w := w.withDataStack m sp) hh hp]; rfl
    | false => rw [commit_advanced hh hp, commit_advanced (w := w.withDataStack m sp) hh hp]; rfl

@[simp] theorem State.withDataStack_cfg : (s.withDataStack m sp).cfg = s.cfg := rfl

@[simp] theorem State.workingCopy_withDataStack :
    (s.withDataStack m sp).workingCopy = s.workingCopy.withDataStack m sp := rfl

@[simp] theorem State.resolve_withDataStack (mf : Bool) (value : Half) :
    (s.withDataStack m sp).resolve mf value = s.resolve mf value := rfl

/-- An instruction whose operation leaves the data stack out ends the same way whatever the data stack and `SP` hold,
and passes them on (20_memory.md R52). -/
theorem execute_withDataStack {op : Operation} (hop : op.avoidsDataStack = true) (mf : Bool) (value : Half) :
    (s.withDataStack m sp).execute (.ok op) mf value =
      mapNext (fun t => t.withDataStack m sp) (s.execute (.ok op) mf value) := by
  simp only [State.execute, State.resolve_withDataStack, State.withDataStack_cfg, State.workingCopy_withDataStack,
    runOperation_withDataStack hop]
  cases s.resolve mf value with
  | error f => rfl
  | ok n =>
    dsimp only
    cases runOperation s.cfg ⟨n, mf, value.toNat⟩ op [] s.workingCopy with
    | error a => cases a <;> rfl
    | ok w => exact congrArg Host.Outcome.next commit_withDataStack

end

end Sys2Proof.Machine

section

open Sys2Proof Sys2Proof.Machine

/-- Settles O57: `popAll_pushAll` from a working state whose data stack is in canonical form. -/
theorem stackRoundTrip : Obligations.StackRoundTrip := by
  intro c vs w hw hsp hvs
  obtain ⟨m, hpush, -, hpop⟩ := popAll_pushAll hw.stack.1 hsp hvs
  exact ⟨_, _, hpush, rfl, hpop, rfl, rfl, rfl, rfl⟩

/-- Settles O58: the operations of the five control transfers hold no primitive that sees the data stack or `SP`. -/
theorem dataStackNeverReachesControl : Obligations.DataStackNeverReachesControl := by
  intro mf value s m sp i hi
  simp only [List.mem_cons, List.not_mem_nil, or_false] at hi
  rcases hi with rfl | rfl | rfl | rfl | rfl
  · exact execute_withDataStack (op := opJmp) rfl mf value
  · exact execute_withDataStack (op := opJz) rfl mf value
  · exact execute_withDataStack (op := opJf) rfl mf value
  · exact execute_withDataStack (op := opCall) rfl mf value
  · exact execute_withDataStack (op := opRet) rfl mf value

end

/-! # The encoding of instructions and the program image (30_encoding.md R73 to R92) -/

namespace Sys2Proof

section

variable {b0 b1 b2 b3 : Byte} {t u : Triple} {i : Instr} {T : OpTable} {W : Nat} {image tag body rest : List Byte}

/-! ## The fields of a group -/

/-- The memory flag looks at bit 0 alone (30_encoding.md R83). -/
theorem Triple.decode_mf : (Triple.decode b0 b1 b2 b3).mf = true ↔ b0.toNat % 2 = 1 := by
  simp [Triple.decode]

theorem Triple.decode_opcode : (Triple.decode b0 b1 b2 b3).opcode = b3 := rfl

/-- Two bytes never overflow the value field (30_encoding.md R84). -/
theorem Triple.decode_value_toNat : (Triple.decode b0 b1 b2 b3).value.toNat = b1.toNat * 256 + b2.toNat := by
  have h1 := b1.isLt
  have h2 := b2.isLt
  have hlt : b1.toNat * 256 + b2.toNat < 2 ^ 16 := by omega
  simp only [Triple.decode, BitVec.toNat_ofNat, Nat.mod_eq_of_lt hlt]

theorem toNat_and_one (b : Byte) : (b &&& 0x01#8).toNat = b.toNat % 2 := by
  rw [BitVec.toNat_and]
  exact Nat.and_one_is_mod _

/-- The decoder ignores bits 7:1 of byte 0 (30_encoding.md R86). -/
theorem Triple.decode_and_one : Triple.decode (b0 &&& 0x01#8) b1 b2 b3 = Triple.decode b0 b1 b2 b3 := by
  simp only [Triple.decode, toNat_and_one, Nat.mod_mod]

/-! ## Round trips of triples and groups -/

/-- 30_encoding.md R90. -/
theorem Triple.decode_of_encode (h : t.encode = [b0, b1, b2, b3]) : Triple.decode b0 b1 b2 b3 = t := by
  obtain ⟨mf, value, opcode⟩ := t
  simp only [Triple.encode, List.cons.injEq, and_true] at h
  obtain ⟨rfl, rfl, rfl, rfl⟩ := h
  have hmf : ((if mf = true then 0x01#8 else 0x00#8).toNat % 2 == 1) = mf := by cases mf <;> rfl
  have hlt := value.isLt
  have hvalue : BitVec.ofNat 16 ((BitVec.ofNat 8 (value.toNat / 256)).toNat * 256 +
      (BitVec.ofNat 8 (value.toNat % 256)).toNat) = value := by
    apply BitVec.eq_of_toNat_eq
    simp only [BitVec.toNat_ofNat]
    omega
  simp only [Triple.decode, hmf, hvalue]

theorem Triple.exists_encode_eq (t : Triple) : ∃ b0 b1 b2 b3, t.encode = [b0, b1, b2, b3] := ⟨_, _, _, _, rfl⟩

/-- Encoding a decoded group clears bits 7:1 of byte 0 (30_encoding.md R86, R90). -/
theorem Triple.encode_decode : (Triple.decode b0 b1 b2 b3).encode = [b0 &&& 0x01#8, b1, b2, b3] := by
  have h2 := b2.isLt
  have hmf : (if (Triple.decode b0 b1 b2 b3).mf = true then 0x01#8 else 0x00#8) = b0 &&& 0x01#8 := by
    apply BitVec.eq_of_toNat_eq
    rw [toNat_and_one]
    simp only [Triple.decode_mf]
    split
    · next h => exact h.symm
    · next h => exact (Nat.mod_two_ne_one.1 h).symm
  have hhigh : (b1.toNat * 256 + b2.toNat) / 256 = b1.toNat := by omega
  have hlow : (b1.toNat * 256 + b2.toNat) % 256 = b2.toNat := by omega
  simp only [Triple.encode, hmf, Triple.decode_value_toNat, hhigh, hlow, BitVec.ofNat_toNat, BitVec.setWidth_eq,
    Triple.decode_opcode]

theorem Triple.encode_injective (h : t.encode = u.encode) : t = u := by
  obtain ⟨b0, b1, b2, b3, hu⟩ := u.exists_encode_eq
  rw [← Triple.decode_of_encode (h.trans hu), Triple.decode_of_encode hu]

/-! ## Round trip of instructions -/

/-- RT's rows name their own opcodes (42_reference_ops.md R136, R157). -/
theorem Instr.ofRt_toTriple (hwf : i.wf = true) (hi : i.isGeneric = false) : Instr.ofRt i.toTriple = i := by
  cases i with
  | dispatch => cases hi
  | unassigned mf value opcode =>
    obtain ⟨-, -, -, hrow⟩ := Laws.EncodedShape.unassigned mf value opcode hwf
    exact hrow hi
  | _ => rfl

theorem Instr.ofTriple_toTriple (hwf : i.wf = true) (hT : i.namedUnder T = true) :
    Instr.ofTriple T i.toTriple = i := by
  cases T with
  | rt => exact Instr.ofRt_toTriple hwf (by simpa [Instr.namedUnder] using hT)
  | given es =>
    cases i with
    | dispatch => rfl
    | _ => cases hT

/-- The decoder takes the four bytes of a triple off the front of a byte list. -/
theorem decode_encode_append (T : OpTable) (t : Triple) (rest : List Byte) :
    decode T (t.encode ++ rest) = .ok (Instr.ofTriple T t, rest) := by
  obtain ⟨b0, b1, b2, b3, ht⟩ := t.exists_encode_eq
  rw [ht, ← Triple.decode_of_encode ht]
  rfl

/-! ## The groups of a body -/

theorem length_takeGroups : ∀ body : List Byte, (takeGroups body).length = body.length / 4
  | [] | [_] | [_, _] | [_, _, _] => by simp [takeGroups]
  | _ :: _ :: _ :: _ :: rest => by
    simp only [takeGroups, List.length_cons, length_takeGroups rest]
    omega

/-- Entry `n` is the group at bytes `4n` to `4n + 3` (30_encoding.md R80). -/
theorem getElem?_takeGroups : ∀ {body : List Byte} {n : Nat}, body[4 * n]? = some b0 → body[4 * n + 1]? = some b1 →
    body[4 * n + 2]? = some b2 → body[4 * n + 3]? = some b3 →
    (takeGroups body)[n]? = some (Triple.decode b0 b1 b2 b3)
  | _ :: _ :: _ :: _ :: _, 0, h0, h1, h2, h3 => by
    cases h0; cases h1; cases h2; cases h3
    rfl
  | _ :: _ :: _ :: _ :: rest, n + 1, h0, h1, h2, h3 => getElem?_takeGroups (body := rest) (n := n) h0 h1 h2 h3
  | [], _, _, _, _, h3 | [_], _, _, _, _, h3 | [_, _], _, _, _, _, h3 | [_, _, _], _, _, _, _, h3 => by
    simp at h3

/-! ## The header -/

theorem splitHeader_eq_none (h : ∀ b ∈ image, b ≠ 0x00#8) : splitHeader image = none := by
  induction image with
  | nil => rfl
  | cons b bs ih =>
    obtain ⟨hb, hbs⟩ := List.forall_mem_cons.1 h
    simp [splitHeader, hb, ih hbs]

/-- The first `0x00` byte ends the tag (30_encoding.md R75). -/
theorem splitHeader_append (h : ∀ b ∈ tag, b ≠ 0x00#8) : splitHeader (tag ++ 0x00#8 :: rest) = some (tag, rest) := by
  induction tag with
  | nil => rfl
  | cons b bs ih =>
    obtain ⟨hb, hbs⟩ := List.forall_mem_cons.1 h
    simp [splitHeader, hb, ih hbs]

theorem parseImage_of_no_terminator (h : ∀ b ∈ image, b ≠ 0x00#8) : parseImage W image = .error image.length := by
  simp [parseImage, splitHeader_eq_none h]

/-- `QM` and an unknown tag fault alike (30_encoding.md R78, R79). -/
theorem parseImage_of_tag_ne (h : ∀ b ∈ tag, b ≠ 0x00#8) (hQT : tag ≠ tagQT) :
    parseImage W (tag ++ 0x00#8 :: rest) = .error 0 := by
  simp [parseImage, splitHeader_append h, hQT]

theorem parseImage_qt : parseImage W (0x51#8 :: 0x54#8 :: 0x00#8 :: body) =
    if 2 ^ W < body.length / 4 then .error (3 + 4 * 2 ^ W) else .ok (takeGroups body) := by
  rw [← length_takeGroups]
  rfl

end

end Sys2Proof

namespace Sys2Proof.Machine

section

variable {s t : State} {image : List Byte}

/-! ## Loading an image -/

theorem load_of_parseImage_ok {prog : List Triple} (hr : s.engine = .ready) (hl : s.loaded = false)
    (h : parseImage s.cfg.width image = .ok prog) : s.load image = some { s with prog := prog, loaded := true } := by
  simp [State.load, hr, hl, h]

theorem load_of_parseImage_error {n : Nat} (hr : s.engine = .ready) (hl : s.loaded = false)
    (h : parseImage s.cfg.width image = .error n) : s.load image = some (s.enterFault none (malformedProgram n)) := by
  simp [State.load, hr, hl, h]

/-- The interface refuses a load outside `ready` and after one that succeeded (30_encoding.md R74). -/
theorem load_eq_none (h : s.engine ≠ .ready ∨ s.loaded = true) : s.load image = none := by
  apply if_neg
  rintro ⟨hr, hl⟩
  rcases h with h | h
  · exact h hr
  · exact Bool.false_ne_true (hl.symm.trans h)

/-- A load that answers leaves `ready` or sets the load flag. -/
theorem engine_or_loaded_of_load (h : s.load image = some t) : t.engine ≠ .ready ∨ t.loaded = true := by
  unfold State.load at h
  split at h
  · split at h <;> cases h
    · exact .inl (by simp)
    · exact .inr rfl
  · cases h

theorem hostAct_load_of_refused (h : s.load image = none) : hostAct (.load image) s = .next s := by
  simp [hostAct, h]

end

end Sys2Proof.Machine

section

open Sys2Proof Sys2Proof.Machine

/-- Settles O6: the four bytes give the triple back, and the triple names its instruction under the table. -/
theorem decodeOfEncodeIsIdentity : Obligations.DecodeOfEncodeIsIdentity := by
  intro T i rest hwf hT
  rw [encode, decode_encode_append, Instr.ofTriple_toTriple hwf hT]

/-- Settles O7: the second and fourth clauses follow from the two round trips. -/
theorem encodeOfDecodeIsIdentity : Obligations.EncodeOfDecodeIsIdentity := by
  refine ⟨fun t => ?_, fun b0 b1 b2 b3 h => ?_, fun _ _ _ _ => Triple.encode_decode, fun _ _ => Triple.encode_injective⟩
  · obtain ⟨b0, b1, b2, b3, ht⟩ := t.exists_encode_eq
    exact ⟨b0, b1, b2, b3, ht, Triple.decode_of_encode ht⟩
  · rw [Triple.encode_decode]
    rcases h with rfl | rfl <;> rfl

/-- Settles O8: the loaded program is `takeGroups` of the body. -/
theorem loadCutsQtImages : Obligations.LoadCutsQtImages := by
  intro s body hr hl hN
  have hparse := parseImage_qt.trans (if_neg (Nat.not_lt.2 hN))
  exact ⟨takeGroups body, load_of_parseImage_ok hr hl hparse, length_takeGroups body,
    fun _ _ _ _ _ => getElem?_takeGroups⟩

/-- Settles O9: each kind of malformed image is one error of `parseImage`, which `load` turns into fault entry. -/
theorem malformedImagesFault : Obligations.MalformedImagesFault := by
  intro s hr hl
  refine ⟨fun image h => ?_, fun tag rest h hQT => ?_, fun body hN => ?_⟩
  · exact load_of_parseImage_error hr hl (parseImage_of_no_terminator h)
  · exact load_of_parseImage_error hr hl (parseImage_of_tag_ne h hQT)
  · exact load_of_parseImage_error hr hl (parseImage_qt.trans (if_pos hN))

/-- Settles O4. -/
theorem decodeReadsTheFields : Obligations.DecodeReadsTheFields :=
  fun _ _ _ _ => ⟨Triple.decode_mf, Triple.decode_value_toNat, Triple.decode_opcode, Triple.decode_and_one.symm⟩

/-- Settles O10: a load that answered leaves a state that refuses the next. -/
theorem loadRunsOnceInReady : Obligations.LoadRunsOnceInReady := by
  refine ⟨fun s image h => ?_, fun s t image image2 h => ?_⟩
  · have hnone := load_eq_none (image := image) (.inl h)
    exact ⟨hnone, hostAct_load_of_refused hnone⟩
  · have hnone := load_eq_none (image := image2) (engine_or_loaded_of_load h)
    exact ⟨hnone, hostAct_load_of_refused hnone⟩

end

/-! # The engine cycle: start, fetch, dispatch and program-counter sequencing (40_engine_cycle.md) -/

namespace Sys2Proof

/-- The last row of RT is reached only past the opcodes of the twenty before it (42_reference_ops.md R157). -/
theorem Instr.ofRt_wf (t : Triple) : (Instr.ofRt t).wf = true := by
  unfold Instr.ofRt
  split
  case h_21 =>
    simp only [Instr.wf, decide_eq_true_eq]
    by_contra hlt
    interval_cases t.opcode.toNat <;> contradiction
  all_goals rfl

/-- Every group decodes to a well-formed instruction, under every table. -/
theorem Instr.ofTriple_wf (T : OpTable) (t : Triple) : (Instr.ofTriple T t).wf = true := by
  cases T with
  | rt => exact Instr.ofRt_wf t
  | given es => rfl

end Sys2Proof

namespace Sys2Proof.Machine

section

variable {s t : State} {w : Work} {mf : Bool} {value : Half} {o : Byte} {op : Operation}

/-! ## Start and fetch -/

theorem start_of_ready (h : s.engine = .ready) : s.start = { s with engine := .running } := if_pos h

theorem start_of_not_ready (h : s.engine ≠ .ready) : s.start = s := if_neg h

/-- 40_engine_cycle.md R102. -/
theorem step_of_pc_out_of_range (hr : s.engine = .running) (hpc : s.prog.length ≤ s.work.regs.pc) :
    Sys2Proof.Machine.step s = .next (s.faulted .programCounterOutOfRange 8 none s.work.regs.pc) :=
  step_of_no_fetch hr (fetch_eq_none.2 hpc)

/-- The image of the bare header has no groups (30_encoding.md R80). -/
theorem load_bare_header (hr : s.engine = .ready) (hl : s.loaded = false) :
    s.load [0x51#8, 0x54#8, 0x00#8] = some { s with prog := [], loaded := true } :=
  load_of_parseImage_ok hr hl (parseImage_qt.trans (if_neg (Nat.not_lt_zero _)))

/-- 40_engine_cycle.md R101. -/
theorem start_empty (he : s.engine = .ready) (hN : s.prog = []) (hpc : s.work.regs.pc = 0) :
    s.instructionCount = 0 ∧ s.start.engine = .running ∧
      Sys2Proof.Machine.step s.start = .next (s.start.faulted .programCounterOutOfRange 8 none 0) := by
  have hstep := step_of_pc_out_of_range (s := { s with engine := .running }) rfl (by simp [hN])
  rw [start_of_ready he]
  exact ⟨by rw [State.instructionCount, hN]; rfl, rfl, by simpa only [hpc] using hstep⟩

/-! ## Dispatch and commit -/

theorem exec_dispatch_of_lookupOp (h : lookupOp s.cfg.optable o = some op) :
    exec (.dispatch mf value o) s = s.execute (.ok op) mf value := by
  rw [exec_dispatch, dispatched_eq_ok.2 h]

@[simp] theorem State.commit_segs (s : State) (w : Work) : (s.commit w).work.segs = w.segs := by
  rcases s.commit_work w with e | ⟨-, e⟩ <;> rw [e]

/-- 40_engine_cycle.md R113. -/
theorem commit_of_haltRequest (hh : w.haltRequest = true) :
    (s.commit w).engine = .halted ∧ (s.commit w).work.regs = w.regs := by
  rw [commit_halted hh]
  exact ⟨rfl, rfl⟩

/-- 40_engine_cycle.md R110. -/
theorem commit_of_pcWritten (hh : w.haltRequest = false) (hp : w.pcWritten = true) :
    (s.commit w).engine = s.engine ∧ (s.commit w).work.regs = w.regs := by
  rw [commit_jumped hh hp]
  exact ⟨rfl, rfl⟩

/-- 40_engine_cycle.md R111. -/
theorem commit_of_next_in_range (hh : w.haltRequest = false) (hp : w.pcWritten = false)
    (hpc : w.regs.pc + 1 < s.prog.length) :
    (s.commit w).engine = s.engine ∧ (s.commit w).work.regs = { w.regs with pc := w.regs.pc + 1 } := by
  rw [commit_advanced hh hp]
  simp [State.advanced, hpc]

/-- 40_engine_cycle.md R112. -/
theorem commit_of_program_end (hh : w.haltRequest = false) (hp : w.pcWritten = false)
    (hpc : s.prog.length ≤ w.regs.pc + 1) :
    (s.commit w).engine = .halted ∧ (s.commit w).work.regs = w.regs := by
  rw [commit_advanced hh hp]
  simp [State.advanced, Nat.not_lt.2 hpc]

end

end Sys2Proof.Machine

section

open Sys2Proof Sys2Proof.Machine

/-- Settles O13, by induction on the number of steps. -/
theorem stepsOutsideRunningChangeNothing : Obligations.StepsOutsideRunningChangeNothing := by
  intro k s h
  induction k with
  | zero => rfl
  | succ k ih => exact (run_succ (M := Sys2Proof.core) (step_of_not_running h) k).trans ih

/-- Settles O16: every instruction is one use of `execute`, which resolves the operand before it dispatches. -/
theorem operandOutOfRangeFaultsFirst : Obligations.OperandOutOfRangeFaultsFirst := by
  intro i s hmf hvalue
  obtain ⟨found, hexec, -⟩ := exec_eq_execute i s
  exact hexec.trans (execute_operand_fault ⟨hmf, hvalue⟩)

/-- Settles O39: the generic row is `execute` of the table's operation, and the two latches and the program's end
decide what its commit leaves. -/
theorem dispatchRunsTableOperation : Obligations.DispatchRunsTableOperation := by
  intro mf value o s n hn
  refine ⟨fun op w hop hrun => ?_, fun op f hop hrun => ?_, fun hop => ?_⟩
  · obtain ⟨hpcWritten, hhalt, hout⟩ := s.commit_latches w
    exact ⟨s.commit w, (exec_dispatch_of_lookupOp hop).trans (execute_ok hn hrun), s.commit_segs w, s.commit_outLog w,
      s.commit_fault w, ⟨s.commit_cfg w, s.commit_prog w, s.commit_loaded w⟩, hpcWritten, hhalt, hout,
      commit_of_haltRequest, commit_of_pcWritten, commit_of_next_in_range, commit_of_program_end⟩
  · exact (exec_dispatch_of_lookupOp hop).trans (execute_fault hn hrun)
  · rw [exec_dispatch_of_lookupOp hop, execute_ok hn runOperation_done, commit_advanced rfl rfl]
    rfl

/-- Settles O11. -/
theorem startEntersRunning : Obligations.StartEntersRunning :=
  ⟨fun _ => start_of_ready, fun _ => start_of_not_ready⟩

/-- Settles O14: the constructed instance and the one that loaded the bare header are both ready, without instructions
and with `PC` 0. -/
theorem fetchOutOfRangeFaults : Obligations.FetchOutOfRangeFaults := by
  refine ⟨fun s => step_of_pc_out_of_range, fun p s t hs ht => ?_⟩
  obtain ⟨-, rfl⟩ := construct_eq_some.1 hs
  rcases ht with rfl | ht
  · exact start_empty rfl rfl rfl
  · obtain rfl := Option.some.inj ((load_bare_header rfl rfl).symm.trans ht)
    exact start_empty rfl rfl rfl

/-- Settles O15: `decode` names the group at `PC` as the step does. -/
theorem stepRunsDecodedInstruction : Obligations.StepRunsDecodedInstruction := by
  intro s b0 b1 b2 b3 i hr hfetch hdecode
  cases hdecode
  exact ⟨step_of_fetch hr hfetch, Instr.ofTriple_wf _ _⟩

end

/-! # The core primitives, for every operation of every table (41_core_primitives.md R117 to R130) -/

namespace Sys2Proof.Machine

section

variable {c : Params} {x : OpContext} {env : List Nat} {w t : Work} {i : NatExpr} {v : Int} {a p u n : Nat} {e : Abort}

/-! ## A segment read as a primitive of an operation -/

theorem runQuery_cacheRead_ok (h : cacheRead c (evalNat env i) w = .ok n) :
    runQuery c x env (.cacheRead i) w = .ok (n, w) := by
  simp [runQuery, h]

theorem runQuery_cacheRead_error (h : cacheRead c (evalNat env i) w = .error e) :
    runQuery c x env (.cacheRead i) w = .error e := by
  simp [runQuery, h]

theorem runQuery_portRead_ok (h : portRead c (evalNat env i) w = .ok n) :
    runQuery c x env (.portRead i) w = .ok (n, w) := by
  simp [runQuery, h]

theorem runQuery_portRead_error (h : portRead c (evalNat env i) w = .error e) :
    runQuery c x env (.portRead i) w = .error e := by
  simp [runQuery, h]

/-! ## What was written is what is read next -/

/-- 41_core_primitives.md R124. -/
theorem cacheRead_of_cacheWrite (hwf : Memory.wf w.segs.cache = true) (hu : Stores c v u)
    (h : cacheWrite c a v w = .ok t) : cacheRead c a t = .ok u := by
  obtain ⟨ha, b, hb, rfl⟩ := cacheWrite_eq_ok.1 h
  obtain rfl := (stores_iff hu b).1 hb
  exact cacheRead_eq_ok.2 ⟨ha, (Memory.read_write_self hwf).symm⟩

/-- 41_core_primitives.md R125. -/
theorem portRead_of_portWrite (hwf : Memory.wf w.segs.ports = true) (hu : Stores c v u)
    (h : portWrite c p v w = .ok t) : portRead c p t = .ok u := by
  obtain ⟨hp, b, hb, rfl⟩ := portWrite_eq_ok.1 h
  obtain rfl := (stores_iff hu b).1 hb
  exact portRead_eq_ok.2 ⟨hp, (Memory.read_write_self hwf).symm⟩

/-- A pop undoes the push before it, but for the cell it leaves (41_core_primitives.md R128, 20_memory.md R59). -/
theorem pop_of_push (hwf : Memory.wf w.segs.stack = true) (hu : Stores c v u) (h : push c v w = .ok t) :
    pop t = .ok (u, { t with regs := w.regs }) := by
  obtain ⟨-, b, hb, rfl⟩ := push_eq_ok.1 h
  obtain rfl := (stores_iff hu b).1 hb
  exact pop_eq_ok.2 ⟨Nat.succ_ne_zero _, congrArg (·, _) (Memory.read_write_self hwf).symm⟩

/-- As `pop_of_push`, on the address stack (41_core_primitives.md R130). -/
theorem apop_of_apush (hwf : Memory.wf w.segs.addressStack = true) (hu : Stores c v u) (h : apush c v w = .ok t) :
    apop t = .ok (u, { t with regs := w.regs }) := by
  obtain ⟨-, b, hb, rfl⟩ := apush_eq_ok.1 h
  obtain rfl := (stores_iff hu b).1 hb
  exact apop_eq_ok.2 ⟨Nat.succ_ne_zero _, congrArg (·, _) (Memory.read_write_self hwf).symm⟩

end

end Sys2Proof.Machine

section

open Sys2Proof Sys2Proof.Machine

/-- Settles O49: an admitted operation writes no cursor, so every end of `execute` is a next state. -/
theorem stepAlwaysAnswersNextState : Obligations.StepAlwaysAnswersNextState :=
  fun _ => step_answers

/-- Settles O41: each register write is `storeReg` or `setPc`. -/
theorem registerPrimitives : Obligations.RegisterPrimitives := by
  intro c x env w v
  refine ⟨fun _ => rfl, fun u hu => ?_, fun hwide => ?_⟩
  · have hreg (r : Reg) := (storeReg_eq_ok (w := w) (r := r)).2 ⟨u, hu, rfl⟩
    have hpc := (setPc_eq_ok (w := w)).2 ⟨u, hu, rfl⟩
    exact ⟨hreg .acc, hreg .pr, hreg .fr, hpc, hpc⟩
  · have hreg (r : Reg) := (storeReg_eq_error (w := w) (r := r)).2 ⟨hwide, rfl⟩
    have hpc := (setPc_eq_error (w := w)).2 ⟨hwide, rfl⟩
    exact ⟨hreg .acc, hreg .pr, hpc, hpc, hreg .fr⟩

/-- Settles O42: the bounds and then the width decide, as `cacheWrite_eq_error` says. -/
theorem cachePrimitives : Obligations.CachePrimitives := by
  intro c x env w i v a outside
  refine ⟨fun ha => ?_, fun ha => ⟨?_, ?_⟩, fun u ha hu => ?_, fun ha hwide => ?_, fun u t hwf hu hw => ⟨?_, rfl⟩⟩
  · exact runQuery_cacheRead_ok (cacheRead_eq_ok.2 ⟨ha, rfl⟩)
  · exact runQuery_cacheRead_error (cacheRead_eq_error.2 ⟨ha, rfl⟩)
  · exact cacheWrite_eq_error.2 (.inl ⟨ha, rfl⟩)
  · exact cacheWrite_eq_ok.2 ⟨ha, u, hu, rfl⟩
  · exact cacheWrite_eq_error.2 (.inr ⟨ha, hwide, rfl⟩)
  · exact runQuery_cacheRead_ok (cacheRead_of_cacheWrite hwf hu hw)

/-- Settles O43: as the cache, with the port event of `portWrite_eq_ok`. -/
theorem portPrimitives : Obligations.PortPrimitives := by
  intro c x env w i v p outside
  refine ⟨fun hp => ?_, fun hp => ⟨?_, ?_⟩, fun u hp hu => ?_, fun hp hwide => ?_, fun u t hwf hu hw => ?_⟩
  · exact runQuery_portRead_ok (portRead_eq_ok.2 ⟨hp, rfl⟩)
  · exact runQuery_portRead_error (portRead_eq_error.2 ⟨hp, rfl⟩)
  · exact portWrite_eq_error.2 (.inl ⟨hp, rfl⟩)
  · exact portWrite_eq_ok.2 ⟨hp, u, hu, rfl⟩
  · exact portWrite_eq_error.2 (.inr ⟨hp, hwide, rfl⟩)
  · exact runQuery_portRead_ok (portRead_of_portWrite hwf hu hw)

/-- Settles O44: the pointer and then the width decide, as `push_eq_error` says. -/
theorem dataStackPrimitives : Obligations.DataStackPrimitives := by
  intro c x env w v
  refine ⟨fun u hsp hu => ?_, fun hsp => ?_, fun hsp hwide => ?_, fun hsp => ?_, fun hsp => ?_, fun u t hwf hu ht => ?_⟩
  · exact push_eq_ok.2 ⟨hsp, u, hu, rfl⟩
  · exact push_eq_error.2 (.inl ⟨hsp, rfl⟩)
  · exact push_eq_error.2 (.inr ⟨hsp, hwide, rfl⟩)
  · exact pop_eq_ok.2 ⟨hsp, rfl⟩
  · exact pop_eq_error.2 ⟨hsp, rfl⟩
  · exact pop_of_push hwf hu ht

/-- Settles O45: as the data stack, with `ASP` and the address stack. -/
theorem addressStackPrimitives : Obligations.AddressStackPrimitives := by
  intro c x env w v
  refine ⟨fun u hasp hu => ?_, fun hasp => ?_, fun hasp hwide => ?_, fun hasp => ?_, fun hasp => ?_,
    fun u t hwf hu ht => ?_⟩
  · exact apush_eq_ok.2 ⟨hasp, u, hu, rfl⟩
  · exact apush_eq_error.2 (.inl ⟨hasp, rfl⟩)
  · exact apush_eq_error.2 (.inr ⟨hasp, hwide, rfl⟩)
  · exact apop_eq_ok.2 ⟨hasp, rfl⟩
  · exact apop_eq_error.2 ⟨hasp, rfl⟩
  · exact apop_of_apush hwf hu ht

end

/-! # The instructions of RT (42_reference_ops.md)

An operation that ends in one primitive runs as that primitive, so each instruction's effect and faults are those of
the primitive. -/

namespace Sys2Proof.Machine

section

variable {c : Params} {x : OpContext} {env : List Nat} {w w' : Work} {s t : State} {mf : Bool} {value : Half}
  {op k : Operation} {q : Query} {e : Effect} {v : Int} {a n u : Nat} {r : Reg}

/-! ## The last primitive of an operation, and the inversion of the first -/

theorem runOperation_act_done : runOperation c x (.act e .done) env w = runEffect c env e w := by
  cases h : runEffect c env e w with
  | error a => exact runOperation_act_error h
  | ok w' => exact runOperation_act h

theorem runOperation_get_eq_ok :
    runOperation c x (.get q k) env w = .ok w' ↔
      ∃ p, runQuery c x env q w = .ok p ∧ runOperation c x k (env ++ [p.1]) p.2 = .ok w' := by
  cases h : runQuery c x env q w with
  | error a => simp [runOperation_get_error h]
  | ok p => simp [runOperation_get h]

theorem runOperation_act_eq_ok :
    runOperation c x (.act e k) env w = .ok w' ↔
      ∃ w1, runEffect c env e w = .ok w1 ∧ runOperation c x k env w1 = .ok w' := by
  cases h : runEffect c env e w with
  | error a => simp [runOperation_act_error h]
  | ok w1 => simp [runOperation_act h]

/-! ## How an instruction ends -/

/-- The latches are clear and no port event waits, as at the start of a step (40_engine_cycle.md R107). -/
abbrev Work.Cleared (w : Work) : Prop := w.pcWritten = false ∧ w.haltRequest = false ∧ w.out = []

theorem State.workingCopy_cleared (s : State) : s.workingCopy.Cleared := ⟨rfl, rfl, rfl⟩

theorem execute_advanced (hn : s.HasOperand mf value n)
    (hr : runOperation s.cfg ⟨n, mf, value.toNat⟩ op [] s.workingCopy = .ok w)
    (hp : w.pcWritten = false) (hh : w.haltRequest = false) :
    s.execute (.ok op) mf value = .next (s.advanced w.regs w.segs w.out) := by
  rw [execute_ok hn hr, commit_advanced hh hp]

theorem execute_jumped (hn : s.HasOperand mf value n)
    (hr : runOperation s.cfg ⟨n, mf, value.toNat⟩ op [] s.workingCopy = .ok w)
    (hp : w.pcWritten = true) (hh : w.haltRequest = false) (ho : w.out = []) :
    s.execute (.ok op) mf value = .next (s.jumped w.regs w.segs) := by
  rw [execute_ok hn hr, commit_jumped hh hp, ho, List.append_nil]
  rfl

theorem execute_halted (hn : s.HasOperand mf value n)
    (hr : runOperation s.cfg ⟨n, mf, value.toNat⟩ op [] s.workingCopy = .ok w)
    (hh : w.haltRequest = true) (ho : w.out = []) :
    s.execute (.ok op) mf value = .next (s.halted w.regs w.segs) := by
  rw [execute_ok hn hr, commit_halted hh, ho, List.append_nil]
  rfl

/-- The fault's code is its kind's (60_exceptions.md R168). -/
theorem execute_faulted {kind : FaultKind} {seg : Option Place} {i : Nat} (hn : s.HasOperand mf value n)
    (hr : runOperation s.cfg ⟨n, mf, value.toNat⟩ op [] s.workingCopy = .error (.raise ⟨kind, seg, i⟩)) :
    s.execute (.ok op) mf value = .next (s.faulted kind (faultCode kind) seg i) :=
  execute_fault hn hr

/-! ## Instructions that end with the write of a register -/

theorem execute_storeReg (hn : s.HasOperand mf value n)
    (hr : runOperation s.cfg ⟨n, mf, value.toNat⟩ op [] s.workingCopy = storeReg s.cfg r v w)
    (hw : w.Cleared) :
    (∀ u, Stores s.cfg v u →
      s.execute (.ok op) mf value = .next (s.advanced (w.regs.set r u) w.segs [])) ∧
    (TooWide s.cfg v →
      s.execute (.ok op) mf value =
        .next (s.faulted .cellWidthExceeded 9 (some (.register r)) (regNumber r))) := by
  obtain ⟨hp, hh, ho⟩ := hw
  refine ⟨fun u hu => ?_, fun hwide => ?_⟩
  · rw [execute_advanced hn (hr.trans (storeReg_eq_ok.2 ⟨u, hu, rfl⟩)) hp hh, ho]
  · exact execute_faulted hn (hr.trans (storeReg_eq_error.2 ⟨hwide, rfl⟩))

/-- A jump and the fetch after it: the target is not checked against `N` before (40_engine_cycle.md R102). -/
theorem step_jumped_out_of_range {regs : RegFile} {segs : Segments} (he : s.engine = .running)
    (hpc : s.prog.length ≤ regs.pc) :
    step (s.jumped regs segs) =
      .next ((s.jumped regs segs).faulted .programCounterOutOfRange 8 none regs.pc) :=
  step_of_pc_out_of_range he hpc

theorem execute_setPc (hn : s.HasOperand mf value n)
    (hr : runOperation s.cfg ⟨n, mf, value.toNat⟩ op [] s.workingCopy = setPc s.cfg v w)
    (hw : w.Cleared) :
    (∀ u, Stores s.cfg v u →
      s.execute (.ok op) mf value = .next (s.jumped { w.regs with pc := u } w.segs) ∧
      (s.engine = .running → s.prog.length ≤ u →
        step (s.jumped { w.regs with pc := u } w.segs) =
          .next ((s.jumped { w.regs with pc := u } w.segs).faulted .programCounterOutOfRange 8 none u))) ∧
    (TooWide s.cfg v →
      s.execute (.ok op) mf value = .next (s.faulted .cellWidthExceeded 9 (some (.register .pc)) 2)) := by
  obtain ⟨-, hh, ho⟩ := hw
  refine ⟨fun u hu => ⟨?_, fun he hN => step_jumped_out_of_range he hN⟩, fun hwide => ?_⟩
  · exact execute_jumped hn (hr.trans (setPc_eq_ok.2 ⟨u, hu, rfl⟩)) rfl hh ho
  · exact execute_faulted hn (hr.trans (setPc_eq_error.2 ⟨hwide, rfl⟩))

/-! ## Instructions that end with a store in a segment -/

theorem execute_cacheWrite (hn : s.HasOperand mf value n) (hv : u < 2 ^ s.cfg.width)
    (hr : runOperation s.cfg ⟨n, mf, value.toNat⟩ op [] s.workingCopy = cacheWrite s.cfg a u s.workingCopy) :
    (a < s.cfg.cacheSize → s.execute (.ok op) mf value =
      .next (s.advanced s.work.regs { s.work.segs with cache := Memory.write s.work.segs.cache a u } [])) ∧
    (s.cfg.cacheSize ≤ a → s.execute (.ok op) mf value =
      .next (s.faulted .addressOutOfRange 3 (some (.segment .cache)) a)) := by
  refine ⟨fun ha => ?_, fun ha => ?_⟩
  · exact execute_advanced hn (hr.trans (cacheWrite_eq_ok.2 ⟨ha, u, stores_self hv, rfl⟩)) rfl rfl
  · exact execute_faulted hn (hr.trans (cacheWrite_eq_error.2 (.inl ⟨ha, rfl⟩)))

theorem execute_push (hn : s.HasOperand mf value n)
    (hr : runOperation s.cfg ⟨n, mf, value.toNat⟩ op [] s.workingCopy = push s.cfg v w)
    (hw : w.Cleared) :
    (∀ u, w.regs.sp < s.cfg.stackSize → Stores s.cfg v u → s.execute (.ok op) mf value =
      .next (s.advanced { w.regs with sp := w.regs.sp + 1 }
        { w.segs with stack := Memory.write w.segs.stack w.regs.sp u } [])) ∧
    (s.cfg.stackSize ≤ w.regs.sp → s.execute (.ok op) mf value =
      .next (s.faulted .stackOverflow 4 (some (.segment .stack)) w.regs.sp)) ∧
    (w.regs.sp < s.cfg.stackSize → TooWide s.cfg v → s.execute (.ok op) mf value =
      .next (s.faulted .cellWidthExceeded 9 (some (.segment .stack)) w.regs.sp)) := by
  obtain ⟨hp, hh, ho⟩ := hw
  refine ⟨fun u hsp hu => ?_, fun hsp => ?_, fun hsp hwide => ?_⟩
  · rw [execute_advanced hn (hr.trans (push_eq_ok.2 ⟨hsp, u, hu, rfl⟩)) hp hh, ho]
    rfl
  · exact execute_faulted hn (hr.trans (push_eq_error.2 (.inl ⟨hsp, rfl⟩)))
  · exact execute_faulted hn (hr.trans (push_eq_error.2 (.inr ⟨hsp, hwide, rfl⟩)))

/-- An instruction whose `value` lies in the cache has an operand in either form. -/
theorem exists_hasOperand (mf : Bool) (h : value.toNat < s.cfg.cacheSize) : ∃ n, s.HasOperand mf value n := by
  cases mf with
  | false => exact ⟨_, .inl ⟨rfl, rfl⟩⟩
  | true => exact ⟨_, .inr ⟨rfl, h, rfl⟩⟩

/-! ## What the operations of RT run -/

theorem runOperation_opHalt : runOperation c x opHalt [] w = .ok (haltRequested w) := rfl

theorem runOperation_opPush : runOperation c x opPush [] w = push c x.operand w := runOperation_act_done

theorem runOperation_opLda : runOperation c x opLda [] w = storeReg c .acc x.operand w := runOperation_act_done

theorem runOperation_opSta : runOperation c x opSta [] w = cacheWrite c x.value w.regs.acc w := runOperation_act_done

theorem runOperation_opAdda : runOperation c x opAdda [] w = storeReg c .acc (w.regs.acc + x.operand) w :=
  runOperation_act_done

theorem runOperation_opSuba : runOperation c x opSuba [] w = storeReg c .acc (w.regs.acc - x.operand) w :=
  runOperation_act_done

theorem runOperation_opJmp : runOperation c x opJmp [] w = setPc c x.operand w := runOperation_act_done

theorem runOperation_opLdp : runOperation c x opLdp [] w = storeReg c .pr x.operand w := runOperation_act_done

theorem runOperation_opSti : runOperation c x opSti [] w = cacheWrite c w.regs.pr w.regs.acc w := runOperation_act_done

theorem runOperation_opOut : runOperation c x opOut [] w = portWrite c x.operand w.regs.acc w := runOperation_act_done

theorem runOperation_opPusha : runOperation c x opPusha [] w = push c w.regs.acc w := runOperation_act_done

theorem runOperation_opCmp :
    runOperation c x opCmp [] w = storeReg c .fr ((if w.regs.acc = x.operand then 1 else 0 : Nat) : Int) w :=
  runOperation_act_done

theorem runOperation_opCmp_of_eq (h : w.regs.acc = x.operand) :
    runOperation c x opCmp [] w = storeReg c .fr (1 : Nat) w := by
  rw [runOperation_opCmp, if_pos h]

theorem runOperation_opCmp_of_ne (h : w.regs.acc ≠ x.operand) :
    runOperation c x opCmp [] w = storeReg c .fr (0 : Nat) w := by
  rw [runOperation_opCmp, if_neg h]

theorem runOperation_opPop (h : w.regs.sp ≠ 0) :
    runOperation c x opPop [] w =
      storeReg c .acc (Memory.read w.segs.stack (w.regs.sp - 1))
        { w with regs := { w.regs with sp := w.regs.sp - 1 } } :=
  (runOperation_get (q := .pop) (pop_eq_ok.2 ⟨h, rfl⟩)).trans runOperation_act_done

/-- Two pops leave `SP` two below where it was, and the push stores there. -/
theorem runOperation_opAdd (h : w.regs.sp = n + 2) :
    runOperation c x opAdd [] w =
      push c ((Memory.read w.segs.stack n + Memory.read w.segs.stack (n + 1) : Nat) : Int)
        { w with regs := { w.regs with sp := n } } := by
  have hb : pop w = .ok (Memory.read w.segs.stack (n + 1), { w with regs := { w.regs with sp := n + 1 } }) :=
    pop_eq_ok.2 ⟨by omega, by rw [h]; rfl⟩
  have ha := pop_eq_ok (w := { w with regs := { w.regs with sp := n + 1 } }).2 ⟨Nat.succ_ne_zero n, rfl⟩
  exact (runOperation_get (q := .pop) hb).trans ((runOperation_get (q := .pop) ha).trans runOperation_act_done)

theorem runOperation_opAdd_underflow (h : w.regs.sp < 2) :
    runOperation c x opAdd [] w =
      .error (.raise { kind := .stackUnderflow, seg := some (.segment .stack), index := 0 }) := by
  rcases Nat.eq_zero_or_pos w.regs.sp with h0 | hpos
  · exact runOperation_get_error (q := .pop) (pop_eq_error.2 ⟨h0, rfl⟩)
  · have hb := pop_eq_ok.2 ⟨Nat.ne_of_gt hpos, rfl⟩
    have ha := pop_eq_error (w := { w with regs := { w.regs with sp := w.regs.sp - 1 } }).2
      ⟨show w.regs.sp - 1 = 0 by omega, rfl⟩
    exact (runOperation_get (q := .pop) hb).trans (runOperation_get_error (q := .pop) ha)

theorem runOperation_opLdi (h : w.regs.pr < c.cacheSize) :
    runOperation c x opLdi [] w = storeReg c .acc (Memory.read w.segs.cache w.regs.pr) w :=
  (runOperation_get (runQuery_cacheRead_ok (env := [w.regs.pr]) (i := .tmp 0) (cacheRead_eq_ok.2 ⟨h, rfl⟩))).trans
    runOperation_act_done

theorem runOperation_opLdi_error (h : c.cacheSize ≤ w.regs.pr) :
    runOperation c x opLdi [] w = .error (.raise (outOfRange .cache w.regs.pr)) :=
  runOperation_get_error (q := .cacheRead (.tmp 0)) (env := [w.regs.pr])
    (runQuery_cacheRead_error (cacheRead_eq_error.2 ⟨h, rfl⟩))

theorem runOperation_opIn (h : x.operand < c.portsSize) :
    runOperation c x opIn [] w = storeReg c .acc (Memory.read w.segs.ports x.operand) w :=
  (runOperation_get (runQuery_portRead_ok (env := [x.operand]) (i := .tmp 0) (portRead_eq_ok.2 ⟨h, rfl⟩))).trans
    runOperation_act_done

theorem runOperation_opIn_error (h : c.portsSize ≤ x.operand) :
    runOperation c x opIn [] w = .error (.raise (outOfRange .ports x.operand)) :=
  runOperation_get_error (q := .portRead (.tmp 0)) (env := [x.operand])
    (runQuery_portRead_error (portRead_eq_error.2 ⟨h, rfl⟩))

theorem runOperation_opRet (h : w.regs.asp ≠ 0) :
    runOperation c x opRet [] w =
      setPc c (Memory.read w.segs.addressStack (w.regs.asp - 1))
        { w with regs := { w.regs with asp := w.regs.asp - 1 } } :=
  (runOperation_get (q := .apop) (apop_eq_ok.2 ⟨h, rfl⟩)).trans runOperation_act_done

theorem runOperation_opCall (h : apush c (w.regs.pc + 1) w = .ok w') :
    runOperation c x opCall [] w = setPc c x.operand w' :=
  (runOperation_act (env := [w.regs.pc]) (e := .apush (.nat (.add (.tmp 0) (.lit 1)))) h).trans runOperation_act_done

theorem runOperation_opCall_error {b : Abort} (h : apush c (w.regs.pc + 1) w = .error b) :
    runOperation c x opCall [] w = .error b :=
  runOperation_act_error (env := [w.regs.pc]) (e := .apush (.nat (.add (.tmp 0) (.lit 1)))) h

/-- The condition that `JZ` tests is 1 where `ACC` is 0, and 0 where it is not. -/
theorem evalNat_isZero : evalNat [a] (isZero (.tmp 0)) = if a = 0 then 1 else 0 := rfl

theorem runOperation_opJz_taken (h : w.regs.acc = 0) : runOperation c x opJz [] w = setPc c x.operand w :=
  (if_pos (by simp [evalNat_isZero, regRead, h])).trans runOperation_act_done

theorem runOperation_opJz_not_taken (h : w.regs.acc ≠ 0) : runOperation c x opJz [] w = .ok w :=
  if_neg (by simp [evalNat_isZero, regRead, h])

theorem runOperation_opJf_taken (h : w.regs.fr ≠ 0) : runOperation c x opJf [] w = setPc c x.operand w :=
  (if_pos h).trans runOperation_act_done

theorem runOperation_opJf_not_taken (h : w.regs.fr = 0) : runOperation c x opJf [] w = .ok w :=
  if_neg (not_not_intro h)

/-- RT's opcodes are those below 0x14 (42_reference_ops.md R136). -/
theorem rtEntries_opcode_lt : ∀ e ∈ rtEntries, e.1.toNat < 0x14 := by decide

theorem lookupOp_rt_eq_none {o : Byte} (h : 0x14 ≤ o.toNat) : lookupOp .rt o = none := by
  cases hop : lookupOp .rt o with
  | none => rfl
  | some op => exact absurd (rtEntries_opcode_lt _ (mem_of_findEntry hop)) (Nat.not_lt.2 h)

/-! ## Jumps that come back -/

/-- A jump to its own index leaves a state that jumps to it again (42_reference_ops.md R145). -/
theorem run_jmp_self (hn : s.HasOperand mf value n) (hrt : s.cfg.optable = .rt) (he : s.engine = .running)
    (hf : s.fetch = some ⟨mf, value, 0x08⟩) (hpc : s.work.regs.pc = n) (hfit : n < 2 ^ s.cfg.width) (k : Nat) :
    ∃ t, Host.Core.run Sys2Proof.core k s = .next t ∧ t.engine = .running ∧ t.work.regs = s.work.regs := by
  induction k generalizing s with
  | zero => exact ⟨s, rfl, he, rfl⟩
  | succ k ih =>
    obtain ⟨h, -⟩ := execute_setPc hn runOperation_opJmp s.workingCopy_cleared
    have hstep : step s = .next (s.jumped s.work.regs s.work.segs) := by
      rw [step_of_fetch he hf, hrt]
      subst hpc
      exact (h _ (stores_self hfit)).1
    rw [run_succ (M := Sys2Proof.core) hstep]
    exact ih hn hrt he hf hpc hfit

end

end Sys2Proof.Machine

section

open Sys2Proof Sys2Proof.Machine

/-- Settles O18: the operation is one push of the operand. -/
theorem pushPushesOperand : Obligations.PushPushesOperand := by
  intro mf value s n hn
  have h := execute_push hn runOperation_opPush s.workingCopy_cleared
  exact ⟨rfl, rfl, h⟩

/-- Settles O19: the popped cell fits the width, so the write of `ACC` cannot fault. -/
theorem popLoadsTopOfStack : Obligations.PopLoadsTopOfStack := by
  intro mf value s n hn hinv
  refine ⟨rfl, rfl, fun hsp => ?_, fun hsp => ?_⟩
  · have h := execute_storeReg hn (runOperation_opPop (w := s.workingCopy) hsp) ⟨rfl, rfl, rfl⟩
    exact h.1 _ (stores_self (Memory.read_lt hinv.stack.2 _))
  · exact execute_faulted hn (runOperation_get_error (q := .pop) (pop_eq_error.2 ⟨hsp, rfl⟩))

/-- Settles O20: with two cells to pop, `SP - 2` is below the capacity. -/
theorem addReplacesTopTwoBySum : Obligations.AddReplacesTopTwoBySum := by
  intro mf value s n hn hinv a b
  have hbound := hinv.spBound
  refine ⟨rfl, rfl, fun u hsp hu => ?_, fun hsp => ?_, fun hsp hwide => ?_⟩
  · obtain ⟨k, hk⟩ := Nat.exists_eq_add_of_le' hsp
    have hroom : k < s.cfg.stackSize := by omega
    obtain ⟨h, -, -⟩ := execute_push hn (runOperation_opAdd (w := s.workingCopy) hk) ⟨rfl, rfl, rfl⟩
    simp only [a, b, hk] at hu ⊢
    exact h u hroom hu
  · exact execute_faulted hn (runOperation_opAdd_underflow hsp)
  · obtain ⟨k, hk⟩ := Nat.exists_eq_add_of_le' hsp
    have hroom : k < s.cfg.stackSize := by omega
    obtain ⟨-, -, h⟩ := execute_push hn (runOperation_opAdd (w := s.workingCopy) hk) ⟨rfl, rfl, rfl⟩
    simp only [a, b, hk] at hwide ⊢
    exact h hroom hwide

/-- Settles O21: the operation is one write of `ACC`. -/
theorem ldaLoadsOperand : Obligations.LdaLoadsOperand := by
  intro mf value s n hn
  have h := execute_storeReg hn runOperation_opLda s.workingCopy_cleared
  exact ⟨rfl, rfl, rfl, h⟩

/-- Settles O23: the operation is one write of `ACC`, with the sum. -/
theorem addaAddsOperand : Obligations.AddaAddsOperand := by
  intro mf value s n hn
  have h := execute_storeReg hn runOperation_opAdda s.workingCopy_cleared
  exact ⟨rfl, rfl, h⟩

/-- Settles O24: the operation is one write of `ACC`, with the integer difference. -/
theorem subaSubtractsOperand : Obligations.SubaSubtractsOperand := by
  intro mf value s n hn
  have h := execute_storeReg hn runOperation_opSuba s.workingCopy_cleared
  exact ⟨rfl, rfl, h⟩

/-- Settles O31: the operation is one write of `PR`, which asks nothing of the cache. -/
theorem ldpLoadsPointer : Obligations.LdpLoadsPointer := by
  intro mf value s n hn
  have h := execute_storeReg hn runOperation_opLdp s.workingCopy_cleared
  exact ⟨rfl, rfl, h⟩

/-- Settles O22: the operand, resolved first, faults on a set `mf` exactly where the store would. -/
theorem staStoresAccumulator : Obligations.StaStoresAccumulator := by
  intro mf value s hinv
  obtain ⟨hacc, -⟩ := hinv.regsFit
  refine ⟨rfl, rfl, fun hvalue => ?_, fun hvalue => ?_⟩
  · obtain ⟨n, hn⟩ := exists_hasOperand mf hvalue
    obtain ⟨h, -⟩ := execute_cacheWrite hn hacc runOperation_opSta
    exact h hvalue
  · cases mf with
    | false =>
      obtain ⟨-, h⟩ := execute_cacheWrite (.inl ⟨rfl, rfl⟩) hacc runOperation_opSta
      exact h hvalue
    | true => exact operandOutOfRangeFaultsFirst (.sta true value) s rfl hvalue

/-- Settles O25: the operation is one write of `PC`; the loop is `run_jmp_self`. -/
theorem jmpSetsPc : Obligations.JmpSetsPc := by
  refine ⟨fun mf value s n hn => ?_, fun mf value s n k hn hrt he hf hpc hfit => ?_⟩
  · have h := execute_setPc hn runOperation_opJmp s.workingCopy_cleared
    exact ⟨rfl, rfl, h⟩
  · exact run_jmp_self hn hrt he hf hpc hfit k

/-- Settles O26: taken it is one write of `PC`, not taken nothing. -/
theorem jzJumpsOnZeroAccumulator : Obligations.JzJumpsOnZeroAccumulator := by
  intro mf value s n hn
  have taken (hz : s.work.regs.acc = 0) :=
    execute_setPc hn (runOperation_opJz_taken (w := s.workingCopy) hz) s.workingCopy_cleared
  refine ⟨rfl, rfl, fun u hz => (taken hz).1 u, fun hz => (taken hz).2, fun hz => ?_⟩
  exact execute_advanced hn (runOperation_opJz_not_taken hz) rfl rfl

/-- Settles O27: the address stack and then the target decide; the next RET reads the cell the CALL wrote. -/
theorem callPushesReturnIndex : Obligations.CallPushesReturnIndex := by
  intro mf value s n hn
  have pushed {r : Nat} (hasp : s.work.regs.asp < s.cfg.astackSize) (hr : Stores s.cfg (s.work.regs.pc + 1) r) :=
    execute_setPc hn (runOperation_opCall (w := s.workingCopy) (apush_eq_ok.2 ⟨hasp, r, hr, rfl⟩)) ⟨rfl, rfl, rfl⟩
  refine ⟨rfl, rfl, fun r u hasp hr hu => ((pushed hasp hr).1 u hu).1, fun hasp => ?_, fun hasp hwide => ?_,
    fun r hasp hr => (pushed hasp hr).2, fun t m2 v2 k hwf hasp hpc hcall ht hk => ?_⟩
  · exact execute_faulted hn (runOperation_opCall_error (apush_eq_error.2 (.inl ⟨hasp, rfl⟩)))
  · exact execute_faulted hn (runOperation_opCall_error (apush_eq_error.2 (.inr ⟨hasp, hwide, rfl⟩)))
  · obtain ⟨hjump, hwide⟩ := pushed hasp (stores_self hpc)
    rcases stores_or_tooWide s.cfg n with ⟨u, hu⟩ | hn'
    · obtain rfl := Host.Outcome.next.inj ((hjump u hu).1.symm.trans hcall)
      obtain ⟨hret, -⟩ := execute_setPc hk (runOperation_opRet (Nat.succ_ne_zero s.work.regs.asp)) ⟨rfl, rfl, rfl⟩
      have htop : Stores s.cfg (Memory.read (Memory.write s.work.segs.addressStack s.work.regs.asp
          (s.work.regs.pc + 1)) s.work.regs.asp) (s.work.regs.pc + 1) := by
        rw [Memory.read_write_self hwf]
        exact stores_self hpc
      obtain ⟨hexec, hstep⟩ := hret _ htop
      exact ⟨_, hexec, rfl, rfl, hstep⟩
    · obtain rfl := Host.Outcome.next.inj ((hwide hn').symm.trans hcall)
      exact absurd rfl ht

/-- Settles O28: the popped return index fits the width, so the jump cannot fault. -/
theorem retPopsReturnIndex : Obligations.RetPopsReturnIndex := by
  intro mf value s n hn hinv
  refine ⟨rfl, rfl, fun hasp => ?_, fun hasp => ?_⟩
  · have h := execute_setPc hn (runOperation_opRet (w := s.workingCopy) hasp) ⟨rfl, rfl, rfl⟩
    exact (h.1 _ (stores_self (Memory.read_lt hinv.astack.2 _))).1
  · exact execute_faulted hn (runOperation_get_error (q := .apop) (apop_eq_error.2 ⟨hasp, rfl⟩))

/-- Settles O29: the port cell fits the width, so the write of `ACC` cannot fault. -/
theorem inReadsPort : Obligations.InReadsPort := by
  intro mf value s n hn hinv
  refine ⟨rfl, rfl, fun hport => ?_, fun hport => ?_⟩
  · have h := execute_storeReg hn (runOperation_opIn hport) s.workingCopy_cleared
    exact h.1 _ (stores_self (Memory.read_lt hinv.ports.2 _))
  · exact execute_faulted hn (runOperation_opIn_error hport)

/-- Settles O30: `ACC` fits the width, so the bounds alone decide. -/
theorem outWritesPort : Obligations.OutWritesPort := by
  intro mf value s n hn hinv
  obtain ⟨hacc, -⟩ := hinv.regsFit
  refine ⟨rfl, rfl, fun hport => ?_, fun hport => ?_⟩
  · exact execute_advanced hn
      (runOperation_opOut.trans (portWrite_eq_ok.2 ⟨hport, _, stores_self hacc, rfl⟩)) rfl rfl
  · exact execute_faulted hn (runOperation_opOut.trans (portWrite_eq_error.2 (.inl ⟨hport, rfl⟩)))

/-- Settles O32: the cache cell fits the width, so the write of `ACC` cannot fault. -/
theorem ldiLoadsThroughPointer : Obligations.LdiLoadsThroughPointer := by
  intro mf value s n hn hinv
  refine ⟨rfl, rfl, fun hpr => ?_, fun hpr => ?_⟩
  · have h := execute_storeReg hn (runOperation_opLdi (w := s.workingCopy) hpr) s.workingCopy_cleared
    exact h.1 _ (stores_self (Memory.read_lt hinv.cache.2 _))
  · exact execute_faulted hn (runOperation_opLdi_error hpr)

/-- Settles O33: `ACC` fits the width, so the bounds alone decide. -/
theorem stiStoresThroughPointer : Obligations.StiStoresThroughPointer := by
  intro mf value s n hn hinv
  obtain ⟨hacc, -⟩ := hinv.regsFit
  have h := execute_cacheWrite hn hacc runOperation_opSti
  exact ⟨rfl, rfl, h⟩

/-- Settles O34: `ACC` fits the width, so the pointer alone decides. -/
theorem pushaPushesAccumulator : Obligations.PushaPushesAccumulator := by
  intro mf value s n hn hinv
  obtain ⟨hacc, -⟩ := hinv.regsFit
  obtain ⟨hroom, hfull, -⟩ := execute_push hn runOperation_opPusha s.workingCopy_cleared
  exact ⟨rfl, rfl, fun hsp => hroom _ hsp (stores_self hacc), hfull⟩

/-- Settles O35: with `1 ≤ W` both 0 and 1 fit the width. -/
theorem cmpSetsFlagRegister : Obligations.CmpSetsFlagRegister := by
  intro mf value s n hn hW
  have hone : 1 < 2 ^ s.cfg.width := Nat.one_lt_two_pow (by omega)
  refine ⟨rfl, rfl, fun heq => ?_, fun hdiff => ?_⟩
  · have h := execute_storeReg hn (runOperation_opCmp_of_eq heq) s.workingCopy_cleared
    exact h.1 1 (stores_self hone)
  · have hne : s.work.regs.acc ≠ n := by omega
    have h := execute_storeReg hn (runOperation_opCmp_of_ne hne) s.workingCopy_cleared
    exact h.1 0 (stores_self (Nat.two_pow_pos _))

/-- Settles O36: taken it is one write of `PC`, not taken nothing. -/
theorem jfJumpsOnFlag : Obligations.JfJumpsOnFlag := by
  intro mf value s n hn
  have taken (hf : s.work.regs.fr ≠ 0) :=
    execute_setPc hn (runOperation_opJf_taken (w := s.workingCopy) hf) s.workingCopy_cleared
  refine ⟨rfl, rfl, fun u hf => (taken hf).1 u, fun hf => (taken hf).2, fun hf => ?_⟩
  exact execute_advanced hn (runOperation_opJf_not_taken hf) rfl rfl

/-- Settles O5, by evaluation. -/
theorem encodedWordsDecode : Obligations.EncodedWordsDecode :=
  ⟨rfl, rfl, rfl, rfl, rfl, rfl, rfl⟩

/-- Settles O17: the operation sets the halt latch alone. -/
theorem haltHalts : Obligations.HaltHalts := by
  intro mf value s n hn
  exact ⟨rfl, execute_halted hn runOperation_opHalt rfl rfl, step_of_not_running (by simp)⟩

/-- Settles O37: RT's opcodes end at 0x13, so dispatch faults unless resolution did. -/
theorem unassignedOpcodeFaults : Obligations.UnassignedOpcodeFaults := by
  intro mf value o s ho
  refine ⟨lookupOp_rt_eq_none ho, Instr.ofRt_toTriple (i := .unassigned mf value o) (by simpa [Instr.wf] using ho) rfl,
    fun n hn => execute_dispatch_fault hn, fun h => ?_⟩
  exact operandOutOfRangeFaultsFirst (.unassigned mf value o) s h.1 h.2

end
/-! # What an RT instruction can change (42_reference_ops.md R136, R137 to R157)

The places that an operation's primitives may change, read off its text, bound what its instruction changes. -/

namespace Sys2Proof

/-- The registers and segments that a primitive which returns a value may change: the two pops move a cursor. -/
def Query.mayChange : Query → Machine.Place → Bool
  | .pop, p => decide (p = .register .sp)
  | .apop, p => decide (p = .register .asp)
  | _, _ => false

/-- The registers and segments that a primitive which returns nothing may change. -/
def Effect.mayChange : Effect → Machine.Place → Bool
  | .regWrite r _, p => decide (p = .register r)
  | .setPc _, p => decide (p = .register .pc)
  | .cacheWrite _ _, p => decide (p = .segment .cache)
  | .portWrite _ _, p => decide (p = .segment .ports)
  | .push _, p => decide (p = .segment .stack ∨ p = .register .sp)
  | .apush _, p => decide (p = .segment .addressStack ∨ p = .register .asp)
  | .halt, _ => false

/-- Some primitive of the operation may change the place. -/
def Operation.mayChange : Operation → Machine.Place → Bool
  | .done, _ => false
  | .get q k, p => q.mayChange p || k.mayChange p
  | .act e k, p => e.mayChange p || k.mayChange p
  | .ite _ k l, p => k.mayChange p || l.mayChange p

end Sys2Proof

namespace Sys2Proof.Machine

/-- The working copies agree at a place; to the ports belong the port events that wait. -/
structure Work.SameAt (w w' : Work) (p : Place) : Prop where
  reg : ∀ r, p = .register r → w'.regs.get r = w.regs.get r
  seg : ∀ g, p = .segment g → w'.segs.get g = w.segs.get g
  out : p = .segment .ports → w'.out = w.out

/-- The states agree at a place; to the ports belongs the output log. -/
structure State.SameAt (s t : State) (p : Place) : Prop where
  reg : ∀ r, p = .register r → s.SameReg t r
  seg : ∀ g, p = .segment g → t.work.segs.get g = s.work.segs.get g
  log : p = .segment .ports → t.outLog = s.outLog

section

variable {c : Params} {x : OpContext} {env : List Nat} {w w' w'' : Work} {s t : State} {mf : Bool} {value : Half}
  {found : Except FaultInfo Operation} {op : Operation} {p : Place} {g k : Segment} {r : Reg} {v : Int}
  {a b u : Nat}

/-! ## The footprint of an operation bounds what it changes -/

theorem Work.SameAt.refl (w : Work) (p : Place) : w.SameAt w p := ⟨fun _ _ => rfl, fun _ _ => rfl, fun _ => rfl⟩

theorem Work.SameAt.trans (h : w.SameAt w' p) (h' : w'.SameAt w'' p) : w.SameAt w'' p where
  reg r hp := (h'.reg r hp).trans (h.reg r hp)
  seg g hp := (h'.seg g hp).trans (h.seg g hp)
  out hp := (h'.out hp).trans (h.out hp)

/-- What a write to one register makes of each. -/
theorem RegFile.get_set (f : RegFile) (r i : Reg) (u : Nat) : (f.set r u).get i = if i = r then u else f.get i := by
  cases r <;> cases i <;> rfl

theorem RegFile.get_set_of_ne {f : RegFile} {i : Reg} (h : i ≠ r) (u : Nat) : (f.set r u).get i = f.get i :=
  (f.get_set r i u).trans (if_neg h)

theorem Work.sameAt_setReg (h : p ≠ .register r) (u : Nat) : w.SameAt { w with regs := w.regs.set r u } p where
  reg i hp := RegFile.get_set_of_ne (by rintro rfl; exact h hp) u
  seg _ _ := rfl
  out _ := rfl

theorem Work.sameAt_writeSeg (h : p ≠ .segment k) (a u : Nat) :
    w.SameAt { w with segs := w.segs.write k a u } p where
  reg _ _ := rfl
  seg g hp := (Segments.get_write _ _ _ _ _).trans (if_neg (by rintro rfl; exact h hp))
  out _ := rfl

theorem storeReg_sameAt (hp : p ≠ .register r) (h : storeReg c r v w = .ok w') : w.SameAt w' p := by
  obtain ⟨u, -, rfl⟩ := storeReg_eq_ok.1 h
  exact Work.sameAt_setReg hp u

theorem setPc_sameAt (hp : p ≠ .register .pc) (h : setPc c v w = .ok w') : w.SameAt w' p := by
  obtain ⟨u, -, rfl⟩ := setPc_eq_ok.1 h
  obtain ⟨hreg, hseg, hout⟩ := Work.sameAt_setReg (w := w) hp u
  exact ⟨hreg, hseg, hout⟩

theorem runQuery_sameAt {q : Query} {y : Nat × Work} (hq : q.mayChange p = false) (h : runQuery c x env q w = .ok y) :
    w.SameAt y.2 p := by
  cases q with
  | regRead | operand | memoryFlag | value => cases h; exact .refl w p
  | cacheRead i =>
    simp only [runQuery] at h
    split at h <;> cases h
    exact .refl w p
  | portRead i =>
    simp only [runQuery] at h
    split at h <;> cases h
    exact .refl w p
  | pop =>
    obtain ⟨-, rfl⟩ := pop_eq_ok.1 h
    exact Work.sameAt_setReg (r := .sp) (of_decide_eq_false hq) _
  | apop =>
    obtain ⟨-, rfl⟩ := apop_eq_ok.1 h
    exact Work.sameAt_setReg (r := .asp) (of_decide_eq_false hq) _

theorem runEffect_sameAt {e : Effect} (he : e.mayChange p = false) (h : runEffect c env e w = .ok w') :
    w.SameAt w' p := by
  cases e with
  | regWrite r _ =>
    have hp : p ≠ .register r := of_decide_eq_false he
    cases r with
    | acc | pr | fr => exact storeReg_sameAt hp h
    | pc => exact setPc_sameAt hp h
    | sp | asp => cases h
  | setPc _ => exact setPc_sameAt (of_decide_eq_false he) h
  | cacheWrite _ _ =>
    obtain ⟨-, u, -, rfl⟩ := cacheWrite_eq_ok.1 h
    exact Work.sameAt_writeSeg (of_decide_eq_false he) _ u
  | portWrite i _ =>
    have hp : p ≠ .segment .ports := of_decide_eq_false he
    obtain ⟨-, u, -, rfl⟩ := portWrite_eq_ok.1 h
    obtain ⟨hreg, hseg, -⟩ := Work.sameAt_writeSeg (w := w) hp (evalNat env i) u
    exact ⟨hreg, hseg, fun hports => absurd hports hp⟩
  | push _ =>
    obtain ⟨hstack, hsp⟩ := not_or.1 (of_decide_eq_false he)
    obtain ⟨-, u, -, rfl⟩ := push_eq_ok.1 h
    exact (Work.sameAt_writeSeg hstack _ u).trans (Work.sameAt_setReg hsp (w.regs.sp + 1))
  | apush _ =>
    obtain ⟨hstack, hasp⟩ := not_or.1 (of_decide_eq_false he)
    obtain ⟨-, u, -, rfl⟩ := apush_eq_ok.1 h
    exact (Work.sameAt_writeSeg hstack _ u).trans (Work.sameAt_setReg hasp (w.regs.asp + 1))
  | halt =>
    cases h
    exact ⟨fun _ _ => rfl, fun _ _ => rfl, fun _ => rfl⟩

theorem runOperation_sameAt (hop : op.mayChange p = false) (h : runOperation c x op env w = .ok w') :
    w.SameAt w' p := by
  induction op generalizing env w with
  | done => cases h; exact .refl _ p
  | get q l ih =>
    obtain ⟨hq, hl⟩ := Bool.or_eq_false_iff.1 hop
    obtain ⟨v, hv, hrun⟩ := runOperation_get_eq_ok.1 h
    exact (runQuery_sameAt hq hv).trans (ih hl hrun)
  | act e l ih =>
    obtain ⟨he, hl⟩ := Bool.or_eq_false_iff.1 hop
    obtain ⟨w1, hw1, hrun⟩ := runOperation_act_eq_ok.1 h
    exact (runEffect_sameAt he hw1).trans (ih hl hrun)
  | ite _ l m ihl ihm =>
    obtain ⟨hl, hm⟩ := Bool.or_eq_false_iff.1 hop
    rw [runOperation_ite] at h
    split at h
    · exact ihl hl h
    · exact ihm hm h

/-! ## So does it bound what the instruction changes -/

/-- A commit passes the working copy on, but for `PC` (40_engine_cycle.md R109). -/
theorem commit_sameAt (hp : p ≠ .register .pc) (h : s.workingCopy.SameAt w p) : s.SameAt (s.commit w) p where
  reg r hr := by
    rcases s.commit_work w with e | ⟨-, e⟩ <;> rw [State.SameReg, e]
    · exact h.reg r hr
    · exact (RegFile.get_set_of_ne (by rintro rfl; exact hp hr) _).trans (h.reg r hr)
  seg g hg := by rw [State.commit_segs, h.seg g hg]; rfl
  log hports := by rw [State.commit_outLog, h.out hports, State.workingCopy_out, List.append_nil]

/-- What an operation cannot change its instruction leaves as it was, whether it faults or commits. -/
theorem execute_sameAt (hp : p ≠ .register .pc) (hfound : ∀ op, found = .ok op → op.mayChange p = false)
    (h : s.execute found mf value = .next t) : s.SameAt t p := by
  rcases execute_cases h with ⟨f, rfl⟩ | ⟨op, n, w, hop, -, hrun, rfl⟩
  · exact ⟨fun _ _ => rfl, fun _ _ => rfl, fun _ => rfl⟩
  · exact commit_sameAt hp (runOperation_sameAt (hfound op hop) hrun)

theorem execute_sameProgram (h : s.execute found mf value = .next t) : s.SameProgram t := by
  rcases execute_cases h with ⟨f, rfl⟩ | ⟨op, n, w, -, -, -, rfl⟩
  · exact ⟨rfl, rfl, rfl⟩
  · exact ⟨s.commit_cfg w, s.commit_prog w, s.commit_loaded w⟩

/-- Under RT a place changes only where the opcode's own entry may change it (42_reference_ops.md R136). -/
theorem opcode_mem_of_not_sameAt {o : Byte} {os : List Nat} (hp : p ≠ .register .pc)
    (hrows : ∀ e ∈ rtEntries, e.2.mayChange p = true → e.1.toNat ∈ os)
    (h : s.execute (dispatched .rt o) mf value = .next t) (hne : ¬ s.SameAt t p) : o.toNat ∈ os := by
  by_contra ho
  refine hne (execute_sameAt hp (fun op hop => Bool.eq_false_iff.2 fun hop' => ho ?_) h)
  exact hrows _ (mem_of_findEntry (dispatched_eq_ok.1 hop)) hop'

/-! ## The frame of an instruction -/

/-- These registers and every segment. -/
def framePlaces (rs : List Reg) : List Place :=
  [.segment .cache, .segment .stack, .segment .addressStack, .segment .ports] ++ rs.map .register

theorem segment_mem_framePlaces (rs : List Reg) (g : Segment) : .segment g ∈ framePlaces rs := by
  cases g <;> simp [framePlaces]

theorem register_mem_framePlaces {rs : List Reg} (h : r ∈ rs) : .register r ∈ framePlaces rs :=
  List.mem_append_right _ (List.mem_map_of_mem h)

theorem execute_sameRegs {rs : List Reg} (hpc : .pc ∉ rs)
    (hfound : ∀ op, found = .ok op → ∀ r ∈ rs, op.mayChange (.register r) = false)
    (h : s.execute found mf value = .next t) : ∀ r ∈ rs, s.SameReg t r := by
  intro r hr
  have hne : Place.register r ≠ .register .pc := fun e => hpc (Place.register.inj e ▸ hr)
  exact (execute_sameAt hne (fun op hop => hfound op hop r hr) h).reg r rfl

/-- The frame of an instruction whose operation stores in no segment (20_memory.md R48). -/
theorem execute_frame {rs : List Reg} (hpc : .pc ∉ rs)
    (hfound : ∀ op, found = .ok op → ∀ p ∈ framePlaces rs, op.mayChange p = false)
    (h : s.execute found mf value = .next t) :
    (∀ r ∈ rs, s.SameReg t r) ∧ (∀ g a, s.SameCell t g a) ∧ t.outLog = s.outLog ∧ s.SameProgram t := by
  have hseg (g : Segment) : s.SameAt t (.segment g) :=
    execute_sameAt (by simp) (fun op hop => hfound op hop _ (segment_mem_framePlaces rs g)) h
  exact ⟨execute_sameRegs hpc (fun op hop _ hr => hfound op hop _ (register_mem_framePlaces hr)) h,
    fun g a => congrArg (Memory.read · a) ((hseg g).seg g rfl), (hseg .ports).log rfl, execute_sameProgram h⟩

/-- The registers the sequencing of a step does not write. -/
abbrev allButPc : List Reg := [.acc, .pr, .fr, .sp, .asp]

theorem mem_allButPc (h : r ≠ .pc) : r ∈ allButPc := by
  revert h
  cases r <;> decide

/-- A write leaves every cell but its own alone (20_memory.md R48). -/
theorem Segments.read_write_of_not {f : Segments} (h : ¬ (g = k ∧ b = a)) (u : Nat) :
    (f.write k a u).read g b = f.read g b := by
  by_cases hg : g = k
  · have hb : b ≠ a := fun hb => h ⟨hg, hb⟩
    rw [Segments.read, Segments.get_write, if_pos hg, Memory.read_write_of_ne hb]
    rfl
  · exact Segments.read_write_of_ne hg a u b

/-- The frame of an instruction whose operation stores in one cell and makes no port event. -/
theorem execute_store_frame {rs : List Reg} (hpc : .pc ∉ rs)
    (hregs : ∀ r ∈ rs, op.mayChange (.register r) = false) (hports : op.mayChange (.segment .ports) = false)
    (hstore : ∀ n w, runOperation s.cfg ⟨n, mf, value.toNat⟩ op [] s.workingCopy = .ok w →
      ∃ u, w.segs = s.workingCopy.segs.write k a u)
    (h : s.execute (.ok op) mf value = .next t) :
    (∀ r ∈ rs, s.SameReg t r) ∧ (∀ g b, ¬ (g = k ∧ b = a) → s.SameCell t g b) ∧ t.outLog = s.outLog ∧
      s.SameProgram t := by
  have hlog : s.SameAt t (.segment .ports) := execute_sameAt (by simp) (fun _ e => Except.ok.inj e ▸ hports) h
  refine ⟨execute_sameRegs hpc (fun _ e => Except.ok.inj e ▸ hregs) h, fun g b hgb => ?_, hlog.log rfl, execute_sameProgram h⟩
  rcases execute_cases h with ⟨f, rfl⟩ | ⟨_, n, w, ⟨⟩, -, hrun, rfl⟩
  · rfl
  · obtain ⟨u, hu⟩ := hstore n w hrun
    rw [State.SameCell, State.commit_segs, hu, State.workingCopy_segs, Segments.read_write_of_not hgb]

/-! ## The one cell that a storing instruction writes -/

theorem cacheWrite_segs (h : cacheWrite c a v w = .ok w') : ∃ u, w'.segs = w.segs.write .cache a u := by
  obtain ⟨-, u, -, rfl⟩ := cacheWrite_eq_ok.1 h
  exact ⟨u, rfl⟩

theorem push_segs (h : push c v w = .ok w') : ∃ u, w'.segs = w.segs.write .stack w.regs.sp u := by
  obtain ⟨-, u, -, rfl⟩ := push_eq_ok.1 h
  exact ⟨u, rfl⟩

theorem runOperation_opAdd_segs (h : runOperation c x opAdd [] w = .ok w') :
    ∃ u, w'.segs = w.segs.write .stack (w.regs.sp - 2) u := by
  rcases Nat.lt_or_ge w.regs.sp 2 with hsp | hsp
  · rw [runOperation_opAdd_underflow hsp] at h
    cases h
  · obtain ⟨n, hn⟩ := Nat.exists_eq_add_of_le' hsp
    rw [runOperation_opAdd hn] at h
    rw [hn]
    exact push_segs h

theorem runOperation_opCall_segs (h : runOperation c x opCall [] w = .ok w') :
    ∃ u, w'.segs = w.segs.write .addressStack w.regs.asp u := by
  cases hpush : apush c (w.regs.pc + 1) w with
  | error e =>
    rw [runOperation_opCall_error hpush] at h
    cases h
  | ok w1 =>
    rw [runOperation_opCall hpush] at h
    obtain ⟨_, -, rfl⟩ := setPc_eq_ok.1 h
    obtain ⟨-, u, -, rfl⟩ := apush_eq_ok.1 hpush
    exact ⟨u, rfl⟩

/-- OUT writes the port cell and makes its one event together, or does neither (42_reference_ops.md R150). -/
theorem execute_opOut_cases (h : s.execute (.ok opOut) mf value = .next t) :
    (t.work.segs = s.work.segs ∧ t.outLog = s.outLog) ∨
      ∃ n u, s.HasOperand mf value n ∧ Stores s.cfg s.work.regs.acc u ∧
        t.work.segs = s.work.segs.write .ports n u ∧ t.outLog = s.outLog ++ [(n, u)] := by
  rcases execute_cases h with ⟨f, rfl⟩ | ⟨_, n, w, ⟨⟩, hn, hrun, rfl⟩
  · exact .inl ⟨rfl, rfl⟩
  · rw [runOperation_opOut] at hrun
    obtain ⟨-, u, hu, rfl⟩ := portWrite_eq_ok.1 hrun
    exact .inr ⟨n, u, hn, hu, State.commit_segs _ _, State.commit_outLog _ _⟩

/-! ## No operation looks at the opcode table -/

theorem runOperation_withTable (T : OpTable) :
    runOperation { c with optable := T } x op env w = runOperation c x op env w := by
  induction op generalizing env w with
  | done => rfl
  | get q l ih =>
    have hq : runQuery { c with optable := T } x env q w = runQuery c x env q w := by cases q <;> rfl
    simp only [runOperation, hq, ih]
  | act e l ih =>
    have he : runEffect { c with optable := T } env e w = runEffect c env e w := by
      cases e with
      | regWrite r _ => cases r <;> rfl
      | _ => rfl
    simp only [runOperation, he, ih]
  | ite b l m ihl ihm => simp only [runOperation_ite, ihl, ihm]

@[simp] theorem State.withTable_cfg (T : OpTable) : (s.withTable T).cfg = { s.cfg with optable := T } := rfl

@[simp] theorem State.workingCopy_withTable (T : OpTable) : (s.withTable T).workingCopy = s.workingCopy := rfl

@[simp] theorem State.resolve_withTable (T : OpTable) (mf : Bool) (value : Half) :
    (s.withTable T).resolve mf value = s.resolve mf value := rfl

theorem commit_withTable (T : OpTable) : (s.withTable T).commit w = (s.commit w).withTable T := by
  cases hh : w.haltRequest with
  | true => rw [commit_halted hh, commit_halted hh]; rfl
  | false =>
    cases hp : w.pcWritten with
    | true => rw [commit_jumped hh hp, commit_jumped hh hp]; rfl
    | false => rw [commit_advanced hh hp, commit_advanced hh hp]; rfl

/-- The table takes part in an instruction only through the operation found in it (40_engine_cycle.md R105). -/
theorem execute_withTable (T : OpTable) (found : Except FaultInfo Operation) (mf : Bool) (value : Half) :
    (s.withTable T).execute found mf value = mapNext (fun t => t.withTable T) (s.execute found mf value) := by
  simp only [State.execute, State.resolve_withTable, State.withTable_cfg, State.workingCopy_withTable,
    runOperation_withTable]
  cases s.resolve mf value with
  | error f => rfl
  | ok n =>
    cases found with
    | error f => rfl
    | ok op =>
      dsimp only
      cases runOperation s.cfg ⟨n, mf, value.toNat⟩ op [] s.workingCopy with
      | error a => cases a <;> rfl
      | ok w => exact congrArg Host.Outcome.next (commit_withTable T)

end

end Sys2Proof.Machine

section

open Sys2Proof Sys2Proof.Machine

/-- Settles O52: the footprint of each operation leaves out the kept registers and every segment. -/
theorem registerInstructionsFrame : Obligations.RegisterInstructionsFrame := by
  intro mf value o s t kept
  have frame {op : Operation} {rs : List Reg} (hpc : .pc ∉ rs) (hop : ∀ p ∈ framePlaces rs, op.mayChange p = false)
      (h : s.execute (.ok op) mf value = .next t) : kept rs :=
    execute_frame hpc (fun _ e => Except.ok.inj e ▸ hop) h
  refine ⟨fun i hi => ?_, frame (op := opLdp) (by decide) (by decide), frame (op := opCmp) (by decide) (by decide),
    fun i hi => ?_⟩
  · simp only [List.mem_cons, List.not_mem_nil, or_false] at hi
    rcases hi with rfl | rfl | rfl | rfl | rfl
    · exact frame (op := opLda) (by decide) (by decide)
    · exact frame (op := opAdda) (by decide) (by decide)
    · exact frame (op := opSuba) (by decide) (by decide)
    · exact frame (op := opIn) (by decide) (by decide)
    · exact frame (op := opLdi) (by decide) (by decide)
  · simp only [List.mem_cons, List.not_mem_nil, or_false] at hi
    rcases hi with rfl | rfl | rfl | rfl | rfl
    · exact frame (op := opHalt) (by decide) (by decide)
    · exact frame (op := opJmp) (by decide) (by decide)
    · exact frame (op := opJz) (by decide) (by decide)
    · exact frame (op := opJf) (by decide) (by decide)
    · exact execute_frame (by decide) (found := .error (unknownOpcode o)) (by rintro _ ⟨⟩)

/-- Settles O51: the entries of RT that may change each place are the listed ones. -/
theorem rtOpcodesThatChangeEachItem : Obligations.RtOpcodesThatChangeEachItem := by
  intro s t i hrt hr hf hstep
  rw [step_of_fetch hr hf, exec_ofTriple, hrt] at hstep
  have reg {r : Reg} {os : List Nat} (hpc : r ≠ .pc)
      (hrows : ∀ e ∈ rtEntries, e.2.mayChange (.register r) = true → e.1.toNat ∈ os) (hne : ¬ s.SameReg t r) :
      i.opcode.toNat ∈ os :=
    opcode_mem_of_not_sameAt (by simp [hpc]) hrows hstep fun h => hne (h.reg r rfl)
  have seg (g : Segment) {os : List Nat}
      (hrows : ∀ e ∈ rtEntries, e.2.mayChange (.segment g) = true → e.1.toNat ∈ os)
      (hne : t.work.segs.get g ≠ s.work.segs.get g) : i.opcode.toNat ∈ os :=
    opcode_mem_of_not_sameAt (by simp) hrows hstep fun h => hne (h.seg g rfl)
  refine ⟨reg (by decide) (by decide), reg (by decide) (by decide), reg (by decide) (by decide),
    reg (by decide) (by decide), reg (by decide) (by decide), seg .cache (by decide), seg .stack (by decide),
    seg .addressStack (by decide), seg .ports (by decide), fun hne => ?_⟩
  exact opcode_mem_of_not_sameAt (p := .segment .ports) (by simp) (by decide) hstep fun h => hne (h.log rfl)

/-- Settles O53: STA and STI store in one cache cell; OUT stores in its port and makes the event, or neither. -/
theorem storingInstructionsFrame : Obligations.StoringInstructionsFrame := by
  intro mf value s t
  refine ⟨fun h => ?_, fun h => ?_, fun h => ?_⟩
  · obtain ⟨hreg, hrest⟩ := execute_store_frame (op := opSta) (rs := allButPc) (by decide) (by decide) (by decide)
      (fun _ _ hw => by rw [runOperation_opSta] at hw; exact cacheWrite_segs hw) h
    exact ⟨fun r hr => hreg r (mem_allButPc hr), hrest⟩
  · obtain ⟨hreg, hrest⟩ := execute_store_frame (op := opSti) (rs := allButPc) (by decide) (by decide) (by decide)
      (fun _ _ hw => by rw [runOperation_opSti] at hw; exact cacheWrite_segs hw) h
    exact ⟨fun r hr => hreg r (mem_allButPc hr), hrest⟩
  · have hreg := execute_sameRegs (found := .ok opOut) (rs := allButPc) (by decide) (by rintro _ ⟨⟩; decide) h
    refine ⟨fun r hr => hreg r (mem_allButPc hr), fun g a hga => ?_, ?_, execute_sameProgram (found := .ok opOut) h⟩
    · rcases execute_opOut_cases h with ⟨hsegs, -⟩ | ⟨n, u, hn, -, hsegs, -⟩
      · rw [State.SameCell, hsegs]
      · rw [State.SameCell, hsegs, Segments.read_write_of_not (hga n hn)]
    · rcases execute_opOut_cases h with ⟨-, hlog⟩ | ⟨n, u, hn, hu, -, hlog⟩
      · exact .inl hlog
      · exact .inr ⟨n, u, hn, hu, hlog⟩

/-- Settles O54: each push stores in one cell, ADD's after two pops; a pop stores in none. -/
theorem stackInstructionsFrame : Obligations.StackInstructionsFrame := by
  intro mf value s t
  refine ⟨fun i hi h => ?_, fun h => ?_, fun h => ?_⟩
  · simp only [List.mem_cons, List.not_mem_nil, or_false] at hi
    rcases hi with rfl | rfl
    · exact execute_store_frame (op := opPush) (by decide) (by decide) (by decide)
        (fun _ _ hw => by rw [runOperation_opPush] at hw; exact push_segs hw) h
    · exact execute_store_frame (op := opPusha) (by decide) (by decide) (by decide)
        (fun _ _ hw => by rw [runOperation_opPusha] at hw; exact push_segs hw) h
  · exact execute_store_frame (op := opAdd) (by decide) (by decide) (by decide)
      (fun _ _ hw => runOperation_opAdd_segs (w := s.workingCopy) hw) h
  · exact execute_frame (found := .ok opPop) (by decide) (by rintro _ ⟨⟩; decide) h

/-- Settles O55: CALL stores the return index in one cell; RET stores in none. -/
theorem callAndRetFrame : Obligations.CallAndRetFrame := by
  intro mf value s t
  refine ⟨fun h => ?_, fun h => ?_⟩
  · exact execute_store_frame (op := opCall) (by decide) (by decide) (by decide)
      (fun _ _ hw => runOperation_opCall_segs (w := s.workingCopy) hw) h
  · exact execute_frame (found := .ok opRet) (by decide) (by rintro _ ⟨⟩; decide) h

/-- Settles O40: both tables find the same operation, and no operation looks at the table. -/
theorem rtAsDataTakesTheSameSteps : Obligations.RtAsDataTakesTheSameSteps := by
  intro s hrt
  by_cases hr : s.engine = .running
  · cases hf : s.fetch with
    | none =>
      rw [step_of_no_fetch hr hf]
      exact step_of_no_fetch hr hf
    | some i =>
      rw [step_of_fetch hr hf, exec_ofTriple, hrt]
      exact (step_of_fetch (s := s.withTable (.given rtEntries)) hr hf).trans
        ((exec_ofTriple i _).trans (execute_withTable _ _ _ _))
  · rw [step_of_not_running hr]
    exact step_of_not_running hr

end

/-! # Faults and the host's port writes (60_exceptions.md) -/

namespace Sys2Proof.Machine

/-- An abort that does not report a malformed image, which only a load does (60_exceptions.md R159). -/
def Abort.NotMalformed : Abort → Prop
  | .raise f => f.kind ≠ .malformedProgram
  | .cursorWrite _ => True

section

variable {c : Params} {x : OpContext} {env : List Nat} {w : Work} {s t : State} {mf : Bool} {value : Half} {o : Byte}
  {found : Except FaultInfo Operation} {op : Operation} {q : Query} {f : Effect} {e : Abort} {v : Int} {r : Reg}
  {image : List Byte} {i n : Nat}

/-! ## The faults that an operation can raise -/

/-- A property of every abort of every primitive holds of every abort of an operation (40_engine_cycle.md R108). -/
theorem runOperation_error_of_primitives {P : Abort → Prop}
    (hq : ∀ env q w e, runQuery c x env q w = .error e → P e)
    (he : ∀ env f w e, runEffect c env f w = .error e → P e) (h : runOperation c x op env w = .error e) : P e := by
  induction op generalizing env w with
  | done => cases h
  | get q k ih =>
    cases hr : runQuery c x env q w with
    | error a =>
      rw [runOperation_get_error hr] at h
      cases h
      exact hq _ _ _ _ hr
    | ok p => rw [runOperation_get hr] at h; exact ih h
  | act f k ih =>
    cases hr : runEffect c env f w with
    | error a =>
      rw [runOperation_act_error hr] at h
      cases h
      exact he _ _ _ _ hr
    | ok w' => rw [runOperation_act hr] at h; exact ih h
  | ite b k l ihk ihl =>
    rw [runOperation_ite] at h
    split at h
    · exact ihk h
    · exact ihl h

theorem runQuery_notMalformed (h : runQuery c x env q w = .error e) : e.NotMalformed := by
  cases q with
  | regRead | operand | memoryFlag | value => cases h
  | cacheRead a =>
    simp only [runQuery] at h
    split at h <;> cases h
    next hr =>
      obtain ⟨-, rfl⟩ := cacheRead_eq_error.1 hr
      exact nofun
  | portRead a =>
    simp only [runQuery] at h
    split at h <;> cases h
    next hr =>
      obtain ⟨-, rfl⟩ := portRead_eq_error.1 hr
      exact nofun
  | pop =>
    obtain ⟨-, rfl⟩ := pop_eq_error.1 h
    exact nofun
  | apop =>
    obtain ⟨-, rfl⟩ := apop_eq_error.1 h
    exact nofun

theorem storeReg_notMalformed (h : storeReg c r v w = .error e) : e.NotMalformed := by
  obtain ⟨-, rfl⟩ := storeReg_eq_error.1 h
  exact nofun

theorem setPc_notMalformed (h : setPc c v w = .error e) : e.NotMalformed := by
  obtain ⟨-, rfl⟩ := setPc_eq_error.1 h
  exact nofun

theorem runEffect_notMalformed (h : runEffect c env f w = .error e) : e.NotMalformed := by
  cases f with
  | regWrite r _ =>
    cases r with
    | acc | pr | fr => exact storeReg_notMalformed h
    | pc => exact setPc_notMalformed h
    | sp | asp => cases h; trivial
  | setPc _ => exact setPc_notMalformed h
  | cacheWrite _ _ => rcases cacheWrite_eq_error.1 h with ⟨-, rfl⟩ | ⟨-, -, rfl⟩ <;> exact nofun
  | portWrite _ _ => rcases portWrite_eq_error.1 h with ⟨-, rfl⟩ | ⟨-, -, rfl⟩ <;> exact nofun
  | push _ => rcases push_eq_error.1 h with ⟨-, rfl⟩ | ⟨-, -, rfl⟩ <;> exact nofun
  | apush _ => rcases apush_eq_error.1 h with ⟨-, rfl⟩ | ⟨-, -, rfl⟩ <;> exact nofun
  | halt => cases h

theorem runOperation_notMalformed (h : runOperation c x op env w = .error e) : e.NotMalformed :=
  runOperation_error_of_primitives (fun _ _ _ _ => runQuery_notMalformed) (fun _ _ _ _ => runEffect_notMalformed) h

/-! ## The faults that a step enters -/

/-- The state after a step that faults: its own `PC` is recorded, and the kind is no load's (60_exceptions.md R169). -/
def State.EntersFault (s t : State) : Prop :=
  ∃ f : FaultInfo, f.kind ≠ .malformedProgram ∧ t = s.enterFault (some s.work.regs.pc) f

theorem execute_entersFault_or_commit (hfound : ∀ f, found = .error f → f.kind = .unknownOpcode)
    (h : s.execute found mf value = .next t) : s.EntersFault t ∨ ∃ w, t = s.commit w := by
  cases hres : s.resolve mf value with
  | error f =>
    obtain ⟨hout, -⟩ := resolve_eq_error.1 hres
    cases (execute_operand_fault hout).symm.trans h
    exact .inl ⟨_, FaultKind.noConfusion, rfl⟩
  | ok n =>
    have hn := resolve_eq_ok.1 hres
    cases found with
    | error f =>
      cases (execute_dispatch_fault hn).symm.trans h
      exact .inl ⟨f, by simp [hfound f rfl], rfl⟩
    | ok op =>
      cases hr : runOperation s.cfg ⟨n, mf, value.toNat⟩ op [] s.workingCopy with
      | ok w =>
        cases (execute_ok hn hr).symm.trans h
        exact .inr ⟨w, rfl⟩
      | error a =>
        cases a with
        | raise f =>
          cases (execute_fault hn hr).symm.trans h
          exact .inl ⟨f, runOperation_notMalformed hr, rfl⟩
        | cursorWrite r => simp [State.execute, hres, hr] at h

theorem step_entersFault_or_commit (hr : s.engine = .running) (h : Sys2Proof.Machine.step s = .next t) :
    s.EntersFault t ∨ ∃ w, t = s.commit w := by
  cases hf : s.fetch with
  | none =>
    cases (step_of_no_fetch hr hf).symm.trans h
    exact .inl ⟨_, FaultKind.noConfusion, rfl⟩
  | some i =>
    obtain ⟨found, hexec, hfound⟩ := exec_eq_execute (Instr.ofTriple s.cfg.optable i) s
    rw [step_of_fetch hr hf, hexec] at h
    exact execute_entersFault_or_commit hfound h

/-- A commit of a running engine is no fault. -/
theorem commit_engine_ne_faulted (hr : s.engine = .running) (w : Work) : (s.commit w).engine ≠ .faulted := by
  rcases s.commit_engine w with he | he <;> simp [he, hr]

/-- Everything a load that is not refused can do (30_encoding.md R74 to R82). -/
theorem load_cases (h : s.load image = some t) :
    (∃ n, t = s.enterFault none (malformedProgram n)) ∨
      s.engine = .ready ∧ ∃ prog, t = { s with prog := prog, loaded := true } := by
  unfold State.load at h
  split at h
  · next hs =>
    obtain ⟨hr, -⟩ := hs
    split at h <;> cases h
    · exact .inl ⟨_, rfl⟩
    · exact .inr ⟨hr, _, rfl⟩
  · cases h

theorem dispatched_of_lookupOp_eq_none {T : OpTable} (h : lookupOp T o = none) :
    dispatched T o = .error (unknownOpcode o) := by
  simp [dispatched, h]

/-! ## A port write of the host -/

theorem hostPortWrite_eq_some {u : Nat} : s.hostPortWrite i u = some t ↔
    i < s.cfg.portsSize ∧ u < 2 ^ s.cfg.width ∧
      t = { s with work := { s.work with segs := s.work.segs.write .ports i u } } := by
  simp [State.hostPortWrite, and_assoc, eq_comm (a := t)]

theorem hostPortWrite_eq_none {u : Nat} : s.hostPortWrite i u = none ↔
    s.cfg.portsSize ≤ i ∨ 2 ^ s.cfg.width ≤ u := by
  simp [State.hostPortWrite, imp_iff_not_or]

end

end Sys2Proof.Machine

section

open Sys2Proof Sys2Proof.Machine

/-- Settles O50: a step enters a fault of another kind than a load's or commits, and a commit is no fault; a load that
does not fault leaves the engine ready. -/
theorem faultsArePrecise : Obligations.FaultsArePrecise := by
  refine ⟨fun s t hr hstep ht => ?_, fun s t image hload ht => ?_⟩
  · rcases step_entersFault_or_commit hr hstep with ⟨f, hkind, rfl⟩ | ⟨w, rfl⟩
    · exact ⟨f.kind, f.seg, f.index, hkind, enterFault_eq_faulted f⟩
    · exact absurd ht (commit_engine_ne_faulted hr w)
  · rcases load_cases hload with ⟨n, rfl⟩ | ⟨hr, prog, rfl⟩
    · exact ⟨n, rfl⟩
    · cases hr.symm.trans ht

/-- Settles O12: in range the write is one `Memory.write` of the ports. -/
theorem hostPortWriteSetsOneCell : Obligations.HostPortWriteSetsOneCell := by
  refine fun s i v => ⟨fun hi hv hwf => ?_, fun h => ?_⟩
  · have hread : Memory.read (Memory.write s.work.segs.ports i v) i = v := Memory.read_write_self hwf
    refine ⟨_, hostPortWrite_eq_some.2 ⟨hi, hv, rfl⟩, hread, fun a ha => Memory.read_write_of_ne ha,
      Memory.wf_write hwf, fun x env e w hw he => runQuery_portRead_ok (portRead_eq_ok.2 ⟨?_, ?_⟩)⟩
    · exact he ▸ hi
    · rw [hw, he, hread]
  · have hnone := hostPortWrite_eq_none.2 h
    exact ⟨hnone, by simp [hostAct, hnone]⟩

/-- Settles O59: the port write keeps the invariant and the operand, so IN loads the cell it wrote. -/
theorem inReadsWhatTheHostWrote : Obligations.InReadsWhatTheHostWrote := by
  intro mf value s t n v hs hn ht
  have hinv := hs.hostPortWrite ht
  obtain ⟨hport, -, rfl⟩ := hostPortWrite_eq_some.1 ht
  obtain ⟨-, -, hin, -⟩ := inReadsPort mf value
    { s with work := { s.work with segs := s.work.segs.write .ports n v } } n hn hinv.work
  exact ⟨_, hin hport, Memory.read_write_self hs.work.ports.1, List.append_nil _⟩

/-- Settles O38: the lookup that finds nothing is the dispatch fault. -/
theorem dispatchFaultsOnUnknownOpcode : Obligations.DispatchFaultsOnUnknownOpcode := by
  intro mf value o s n hn hnone
  rw [exec_dispatch, dispatched_of_lookupOp_eq_none hnone]
  exact execute_dispatch_fault hn

end

/-! # What `construct` asks of its parameters (70_reset_and_hazards.md R181) -/

namespace Sys2Proof.Machine

section

variable {p : Params} {es : List (Byte × Operation)} {e : Byte × Operation}

theorem construct_eq_none : construct p = none ↔ ¬ p.wf = true := by
  simp [construct]

theorem construct_eq_fresh (hT : p.optable.wf = true) (hw : 1 ≤ p.width) (hs : p.stackSize ≤ 2 ^ p.width - 1)
    (ha : p.astackSize ≤ 2 ^ p.width - 1) : construct p = some (State.fresh p) :=
  construct_eq_some.2 ⟨Params.wf_iff.2 ⟨hw, hs, ha, hT⟩, rfl⟩

theorem OpTable.wf_given_iff : (OpTable.given es).wf = true ↔
    ∀ e ∈ es, holdsCursorWrite e.2 = false ∧ namesOnlyReadValues 0 e.2 = true := by
  simp [OpTable.wf, admitted_iff]

/-- One entry of a supplied table that fails either check fails the construction. -/
theorem construct_given_eq_none (hT : p.optable = .given es) (he : e ∈ es)
    (h : ¬ (holdsCursorWrite e.2 = false ∧ namesOnlyReadValues 0 e.2 = true)) : construct p = none := by
  refine construct_eq_none.2 fun hp => ?_
  obtain ⟨-, -, -, hwf⟩ := Params.wf_iff.1 hp
  rw [hT] at hwf
  exact h (OpTable.wf_given_iff.1 hwf e he)

end

end Sys2Proof.Machine

section

open Sys2Proof Sys2Proof.Machine

/-- Settles O2: `construct` decides `Params.wf`, whose table check asks of each entry what `admitted_iff` says. -/
theorem constructChecksParameters : Obligations.ConstructChecksParameters := by
  refine ⟨fun p hnum => ?_, fun p es e hT he hcur => ?_, fun p es e hT he hnames => ?_, fun p hT => ?_,
    fun p es hT hw hs ha hes => ?_⟩
  · refine construct_eq_none.2 fun hp => ?_
    obtain ⟨hw, hs, ha, -⟩ := Params.wf_iff.1 hp
    omega
  · exact construct_given_eq_none hT he fun ⟨hno, _⟩ => by simp [hcur] at hno
  · exact construct_given_eq_none hT he fun ⟨_, hread⟩ => by simp [hnames] at hread
  · exact construct_eq_fresh (hT ▸ rfl)
  · exact construct_eq_fresh (hT ▸ OpTable.wf_given_iff.2 hes) hw hs ha

end

/-! # The instruction's context (41_core_primitives.md R132) -/

namespace Sys2Proof.Machine

/-- The memory flag as the number the model represents it by (log 4). -/
theorem runQuery_memoryFlag {c : Params} {x : OpContext} {env : List Nat} {w : Work} :
    runQuery c x env .memoryFlag w = .ok (x.mf.toNat, w) := by
  cases h : x.mf <;> simp [runQuery, h]

end Sys2Proof.Machine

section

open Sys2Proof Sys2Proof.Machine

/-- Settles O3: `construct` answers the fresh state of admitted parameters, and the reset state is one such. -/
theorem constructedInstanceSatisfiesInvariant : Obligations.ConstructedInstanceSatisfiesInvariant := by
  have hconstruct (p : Params) (s : State) (h : construct p = some s) : s.Inv := by
    obtain ⟨hp, rfl⟩ := construct_eq_some.1 h
    exact fresh_inv hp
  have hreset : construct Params.reference = some State.reset := by decide
  exact ⟨hconstruct _ _ hreset, hconstruct⟩

/-- Settles O46: MF is read as `runQuery_memoryFlag` says, and the others are their defining equations. -/
theorem haltAndContextPrimitives : Obligations.HaltAndContextPrimitives := by
  intro c x env w
  refine ⟨rfl, rfl, rfl, fun hset => ?_, fun hclear => ?_⟩
  · rw [runQuery_memoryFlag, hset, Bool.toNat_true]
  · rw [runQuery_memoryFlag, hclear, Bool.toNat_false]

end
